-- ==== Sys2Proof/Word.lean ====
section
/-! DEFINITION. The numbers of the machine. A value (what a memory cell, `PC`, `RB`, `INR` or an element of `OUTQ`
holds) is an integer, `Int` (R5, R11); there are no bytes, bits or words (R66). The key of a memory cell, once an address has
been found legal, is a natural number, `Nat` (R60); an address being computed is an `Int`, because it may be negative
(R65). This file holds the spec's division and remainder (R12). -/

namespace Sys2Proof

/-- `fdiv(a, m)` for `m > 0`: the largest `q` with `q * m ≤ a`. Lean's `/` on integers is this for `m > 0`. -/
def fdiv (a m : Int) : Int := a / m

/-- `fmod(a, m) = a - m * fdiv(a, m)`, in `[0, m)` for `m > 0`. -/
def fmod (a m : Int) : Int := a - m * fdiv a m

/-- `tdiv(a, m)`: `a / m` rounded toward zero. -/
def tdiv (a m : Int) : Int := Int.tdiv a m

/-- `tmod(a, m) = a - m * tdiv(a, m)`, with the sign of `a`. -/
def tmod (a m : Int) : Int := a - m * tdiv a m

end Sys2Proof
end

