-- ==== Sys2Proof/Config.lean ====
section
/-! DEFINITION. The implementation parameters of the machine as types (R5, R7, R9). Every operation of the model takes
a `Params`; the values this hardware takes are `hardware` in Machine/Hardware.lean. -/

namespace Sys2Proof

/-- `CELL_BITS` (R5): the width of a value, two's-complement signed, or unbounded. -/
inductive CellBits where
  /-- `INF`: values are mathematical integers. -/
  | inf
  /-- A finite width in bits. R5 asks for at least 64, see `Params.legal`. -/
  | finite (bits : Nat)
  deriving DecidableEq, Repr

/-- `DECODE_MOD` (R7): how `mod` and `floor` of the decode formulas treat a negative instruction cell. -/
inductive DecodeMod where
  | floored
  | truncated
  deriving DecidableEq, Repr

/-- `UNUSED_MODE_DIGITS` (R9): what the decoder does with a mode digit of a parameter position the opcode does not
have, and with the digits at `10^5` and above. -/
inductive UnusedDigits where
  | ignore
  | fault
  deriving DecidableEq, Repr

/-- The three independent parameters. `ADDR_MAX` is derived from `CELL_BITS` (R6), and `INPUT_AT_CONSTRUCT` (R8)
has one value only, the fault `InputUnset`. -/
structure Params where
  cellBits : CellBits
  decodeMod : DecodeMod
  unusedDigits : UnusedDigits
  deriving DecidableEq, Repr

/-- The parameter values R5 allows: a finite width is at least 64. -/
def Params.legal (P : Params) : Bool :=
  match P.cellBits with
  | .inf => true
  | .finite bits => decide (64 ≤ bits)

end Sys2Proof
end

