-- ==== Sys2Proof/Machine/Hardware.lean ====
section
/-! DEFINITION. The parameter values of this hardware, the set `VAL`, and the two range checks (R5, R6, R14). -/

namespace Sys2Proof

/-- This hardware: `CELL_BITS = INF` (R5, the default the spec gives the model; log 1), `DECODE_MOD = floored` (R7)
and `UNUSED_MODE_DIGITS = ignore` (R9; log 2). -/
def hardware : Params :=
  { cellBits := .inf, decodeMod := .floored, unusedDigits := .ignore }

/-- The finite instance R5 names: 64 bits, the other parameters as `hardware`. -/
def hardware64 : Params :=
  { hardware with cellBits := .finite 64 }

/-- `v ≤ VAL_MAX` (R5); always true when `CELL_BITS = INF`. -/
def leValMax (P : Params) (v : Int) : Bool :=
  match P.cellBits with
  | .inf => true
  | .finite bits => decide (v ≤ 2 ^ (bits - 1) - 1)

/-- `VAL_MIN ≤ v` (R5); always true when `CELL_BITS = INF`. -/
def geValMin (P : Params) (v : Int) : Bool :=
  match P.cellBits with
  | .inf => true
  | .finite bits => decide (-(2 ^ (bits - 1)) ≤ v)

/-- `inVAL(v)` (R14): `v` is a member of `VAL`. -/
def inVal (P : Params) (v : Int) : Bool :=
  geValMin P v && leValMax P v

/-- `legalAddr(a)` (R14): `0 ≤ a ≤ ADDR_MAX`, where `ADDR_MAX = VAL_MAX` (R6). -/
def legalAddr (P : Params) (a : Int) : Bool :=
  decide (0 ≤ a) && leValMax P a

end Sys2Proof
end

