-- ==== Sys2Proof/Syntax.lean ====
section
/-! DEFINITION. The instructions: roles, the ten opcodes with their table columns, operand forms, and `Instr`, one
constructor for each row of the opcode table (R15, R93, R97, R98, R100, R107). -/

namespace Sys2Proof

/-- The role of a parameter (R15): the action consumes its value, or its result goes to the address. -/
inductive Role where
  | input
  | output
  deriving DecidableEq, Repr

/-- The ten opcodes of R100, by the mnemonics of R107. -/
inductive Opcode where
  | add | mul | inp | out | jnz | jz | lt | eq | arb | hlt
  deriving DecidableEq, Repr

/-- An IN parameter: its addressing mode with its raw parameter (R97). -/
inductive InOperand where
  /-- mode 0: the value is `MEM[p]` -/
  | position (p : Int)
  /-- mode 1: the value is `v` itself -/
  | immediate (v : Int)
  /-- mode 2: the value is `MEM[p + RB]` -/
  | relative (p : Int)
  deriving DecidableEq, Repr

/-- An OUT parameter: its addressing mode with its raw parameter (R98). Mode 1 does not exist for it. -/
inductive OutOperand where
  /-- mode 0: the target is `p` -/
  | position (p : Int)
  /-- mode 2: the target is `p + RB` -/
  | relative (p : Int)
  deriving DecidableEq, Repr

/-- An instruction with its resolved modes and its raw parameters, the parameters in their order (R90, R100). -/
inductive Instr where
  /-- `ADD`, opcode 1 (R150) -/
  | add (a b : InOperand) (dst : OutOperand)
  /-- `MUL`, opcode 2 (R151) -/
  | mul (a b : InOperand) (dst : OutOperand)
  /-- `IN`, opcode 3 (R160); `in` is a word of Lean's -/
  | inp (dst : OutOperand)
  /-- `OUT`, opcode 4 (R162) -/
  | out (a : InOperand)
  /-- `JNZ`, opcode 5 (R171) -/
  | jnz (a target : InOperand)
  /-- `JZ`, opcode 6 (R173) -/
  | jz (a target : InOperand)
  /-- `LT`, opcode 7 (R180) -/
  | lt (a b : InOperand) (dst : OutOperand)
  /-- `EQ`, opcode 8 (R181) -/
  | eq (a b : InOperand) (dst : OutOperand)
  /-- `ARB`, opcode 9 (R190) -/
  | arb (a : InOperand)
  /-- `HLT`, opcode 99 (R195) -/
  | hlt
  deriving DecidableEq, Repr

/-- Which row of the opcode table an instruction belongs to. -/
def Instr.opcode : Instr → Opcode
  | .add _ _ _ => .add
  | .mul _ _ _ => .mul
  | .inp _ => .inp
  | .out _ => .out
  | .jnz _ _ => .jnz
  | .jz _ _ => .jz
  | .lt _ _ _ => .lt
  | .eq _ _ _ => .eq
  | .arb _ => .arb
  | .hlt => .hlt

/-- The raw parameter of an operand, whatever its mode (R95). -/
def InOperand.raw : InOperand → Int
  | .position p => p
  | .immediate v => v
  | .relative p => p

/-- The raw parameter of an operand, whatever its mode (R95). -/
def OutOperand.raw : OutOperand → Int
  | .position p => p
  | .relative p => p

/-- The raw parameter cells of an instruction, at `PC + 1` onwards, in order (R90). -/
def Instr.rawParams : Instr → List Int
  | .add a b d | .mul a b d | .lt a b d | .eq a b d => [a.raw, b.raw, d.raw]
  | .inp d => [d.raw]
  | .out a | .arb a => [a.raw]
  | .jnz a t | .jz a t => [a.raw, t.raw]
  | .hlt => []

end Sys2Proof
end

