-- ==== Sys2Proof/WellFormed.lean ====
section
/-! DEFINITION. Which instructions can stand in memory: every raw parameter is a member of `VAL` (R95). The modes are
checked by their types (R97, R98): no ill-formed mode can be written down. -/

namespace Sys2Proof

/-- Every raw parameter is a whole cell of the machine with these parameters (R95). -/
def Instr.wellFormed (P : Params) (i : Instr) : Bool :=
  i.rawParams.all (inVal P)

end Sys2Proof
end

