-- ==== Sys2Proof/Decode.lean ====
section
/-! DEFINITION. The decimal decoder and the encoder (R11, R90 to R106, R108, R123 to R125). -/

namespace Sys2Proof

/-! ## Division and remainder under `DECODE_MOD` (R7) -/

/-- The quotient of the decode formulas under `DECODE_MOD` (R7, R92). -/
def quotient (P : Params) (a m : Int) : Int :=
  match P.decodeMod with
  | .floored => fdiv a m
  | .truncated => tdiv a m

/-- The remainder of the decode formulas under `DECODE_MOD` (R7, R92). -/
def remainder (P : Params) (a m : Int) : Int :=
  match P.decodeMod with
  | .floored => fmod a m
  | .truncated => tmod a m

/-! ## The fields of an instruction cell (R91, R92) -/

/-- The two low decimal digits. -/
def opcodeField (P : Params) (cell : Int) : Int :=
  remainder P cell 100

/-- `mode_k`, the digit at `10^(k+1)`, for `k` = 1, 2, 3. -/
def modeField (P : Params) (k : Nat) (cell : Int) : Int :=
  remainder P (quotient P cell (10 ^ (k + 1))) 10

/-! ## The opcode table (R100) -/

/-- The opcode number. -/
def opcodeNumber : Opcode → Int
  | .add => 1
  | .mul => 2
  | .inp => 3
  | .out => 4
  | .jnz => 5
  | .jz => 6
  | .lt => 7
  | .eq => 8
  | .arb => 9
  | .hlt => 99

/-- The parameter roles in order. -/
def opcodeShape : Opcode → List Role
  | .add | .mul | .lt | .eq => [.input, .input, .output]
  | .inp => [.output]
  | .out | .arb => [.input]
  | .jnz | .jz => [.input, .input]
  | .hlt => []

/-- Whether the opcode manages `PC` itself; the others advance by their length (R134, R135). -/
def opcodeManagesPc : Opcode → Bool
  | .jnz | .jz | .hlt => true
  | .add | .mul | .inp | .out | .lt | .eq | .arb => false

/-- The length in cells, `1 + n` (R90, R94). -/
def opcodeLength (op : Opcode) : Nat :=
  1 + (opcodeShape op).length

/-- The lookup of R124: the row whose number is the opcode field, or none. -/
def lookup (number : Int) : Option Opcode :=
  if number = 1 then some .add
  else if number = 2 then some .mul
  else if number = 3 then some .inp
  else if number = 4 then some .out
  else if number = 5 then some .jnz
  else if number = 6 then some .jz
  else if number = 7 then some .lt
  else if number = 8 then some .eq
  else if number = 9 then some .arb
  else if number = 99 then some .hlt
  else none

/-! ## Decode (R123 to R125) -/

/-- Why an instruction cell is no instruction; each carries the cell's value (R220). -/
inductive Reject where
  /-- the opcode field is not in the table (R101, R124) -/
  | unknownOpcode (cell : Int)
  /-- a mode digit is illegal for its role, or an unused digit is set where that is a fault (R102, R125) -/
  | invalidAddressingMode (cell : Int)
  deriving DecidableEq, Repr

/-- An IN parameter from its mode digit and raw parameter: digits 0, 1, 2 (R97, R102). -/
def inOperand (cell mode raw : Int) : Except Reject InOperand :=
  if mode = 0 then .ok (.position raw)
  else if mode = 1 then .ok (.immediate raw)
  else if mode = 2 then .ok (.relative raw)
  else .error (.invalidAddressingMode cell)

/-- An OUT parameter from its mode digit and raw parameter: digits 0 and 2 (R98, R102). -/
def outOperand (cell mode raw : Int) : Except Reject OutOperand :=
  if mode = 0 then .ok (.position raw)
  else if mode = 2 then .ok (.relative raw)
  else .error (.invalidAddressingMode cell)

/-- Every mode digit above position `n` is 0, and so is everything at `10^5` and above (R103, R104). -/
def unusedDigitsZero (P : Params) (n : Nat) (cell : Int) : Bool :=
  ([1, 2, 3].all fun k => decide (k ≤ n) || decide (modeField P k cell = 0))
    && decide (fdiv cell 100000 = 0)

/-- The last part of R125: with `UNUSED_MODE_DIGITS = fault` a set unused digit is refused. -/
def checkUnused (P : Params) (n : Nat) (cell : Int) : Except Reject Unit :=
  match P.unusedDigits with
  | .ignore => .ok ()
  | .fault => if unusedDigitsZero P n cell then .ok () else .error (.invalidAddressingMode cell)

/-- Format `F3`: IN, IN, OUT (R93). -/
def decodeF3 (P : Params) (mk : InOperand → InOperand → OutOperand → Instr) (cell p1 p2 p3 : Int) :
    Except Reject Instr := do
  let a ← inOperand cell (modeField P 1 cell) p1
  let b ← inOperand cell (modeField P 2 cell) p2
  let d ← outOperand cell (modeField P 3 cell) p3
  checkUnused P 3 cell
  return mk a b d

/-- Format `F2`: IN, IN (R93). -/
def decodeF2 (P : Params) (mk : InOperand → InOperand → Instr) (cell p1 p2 : Int) : Except Reject Instr := do
  let a ← inOperand cell (modeField P 1 cell) p1
  let b ← inOperand cell (modeField P 2 cell) p2
  checkUnused P 2 cell
  return mk a b

/-- Format `F1I`: IN (R93). -/
def decodeF1I (P : Params) (mk : InOperand → Instr) (cell p1 : Int) : Except Reject Instr := do
  let a ← inOperand cell (modeField P 1 cell) p1
  checkUnused P 1 cell
  return mk a

/-- Format `F1O`: OUT (R93). -/
def decodeF1O (P : Params) (mk : OutOperand → Instr) (cell p1 : Int) : Except Reject Instr := do
  let d ← outOperand cell (modeField P 1 cell) p1
  checkUnused P 1 cell
  return mk d

/-- Format `F0`: no parameter (R93). -/
def decodeF0 (P : Params) (i : Instr) (cell : Int) : Except Reject Instr := do
  checkUnused P 0 cell
  return i

/-- The mode check and the operands of a known opcode (R125, R93). -/
def decodeOperands (P : Params) (op : Opcode) (cell p1 p2 p3 : Int) : Except Reject Instr :=
  match op with
  | .add => decodeF3 P .add cell p1 p2 p3
  | .mul => decodeF3 P .mul cell p1 p2 p3
  | .inp => decodeF1O P .inp cell p1
  | .out => decodeF1I P .out cell p1
  | .jnz => decodeF2 P .jnz cell p1 p2
  | .jz => decodeF2 P .jz cell p1 p2
  | .lt => decodeF3 P .lt cell p1 p2 p3
  | .eq => decodeF3 P .eq cell p1 p2 p3
  | .arb => decodeF1I P .arb cell p1
  | .hlt => decodeF0 P .hlt cell

/-- The decoder, total on any four cells: the instruction cell and the three cells after it, of which an instruction
uses as many as it has parameters. The lookup comes before the mode check (R124). -/
def decode (P : Params) (cell p1 p2 p3 : Int) : Except Reject Instr :=
  match lookup (opcodeField P cell) with
  | none => .error (.unknownOpcode cell)
  | some op => decodeOperands P op cell p1 p2 p3

/-- The decoder on a list of cells; a cell the list does not have reads 0, as an unwritten cell does (R61). -/
def decodeWords (P : Params) (cells : List Int) : Except Reject Instr :=
  decode P (cells.getD 0 0) (cells.getD 1 0) (cells.getD 2 0) (cells.getD 3 0)

/-! ## Encode (R91, R108, R111) -/

/-- The mode digit of an IN parameter (R97). -/
def inModeDigit : InOperand → Int
  | .position _ => 0
  | .immediate _ => 1
  | .relative _ => 2

/-- The mode digit of an OUT parameter (R98). -/
def outModeDigit : OutOperand → Int
  | .position _ => 0
  | .relative _ => 2

/-- The mode digits of parameters 1, 2 and 3, 0 where the opcode has no such parameter (R111). -/
def modeDigits : Instr → Int × Int × Int
  | .add a b d | .mul a b d | .lt a b d | .eq a b d => (inModeDigit a, inModeDigit b, outModeDigit d)
  | .inp d => (outModeDigit d, 0, 0)
  | .out a | .arb a => (inModeDigit a, 0, 0)
  | .jnz a t | .jz a t => (inModeDigit a, inModeDigit t, 0)
  | .hlt => (0, 0, 0)

/-- The canonical instruction cell: `opcode + 100*mode1 + 1000*mode2 + 10000*mode3` (R108). -/
def encodeCell (i : Instr) : Int :=
  opcodeNumber i.opcode + 100 * (modeDigits i).1 + 1000 * (modeDigits i).2.1 + 10000 * (modeDigits i).2.2

/-- The cells of an instruction: its instruction cell, then its raw parameters (R90). -/
def encode (i : Instr) : List Int :=
  encodeCell i :: i.rawParams

/-! ## The host's question -/

/-- The number the host's bits spell, as one instruction cell: a cell is a whole integer, so all the bits of the row
belong to it (log 8). -/
def tableCell (nbits w : Nat) : Int :=
  Int.ofNat (w % 2 ^ nbits)

/-- The instruction this hardware's decoder reads from an instruction cell of value `w` followed by parameter cells
of 0 (log 8). -/
def decodeTableWord (nbits w : Nat) : Option Instr :=
  match decode hardware (tableCell nbits w) 0 0 0 with
  | .ok i => some i
  | .error _ => none

end Sys2Proof
end

