-- ==== Sys2Proof/Machine/State.lean ====
section
/-! DEFINITION. The faults, the refusals, the memory, the seven state elements and the state after reset (R21, R60,
R220, R260). -/

namespace Sys2Proof.Machine

/-- The five fault causes (R220), each with the `info` it records. The latch `FAULT` holds one (R29). A meaning or the
fetch that raises one takes it as R229 describes it: a NEXT state that differs in `FAULT` alone. So no step answers
`Host.Outcome.fault`, and each of the five is safe: it stands where the spec puts it. -/
inductive Fault where
  /-- Code 1 (R221). Raised by the lookup for an opcode that is not in the table; `info` is the instruction cell.
  Safe. -/
  | unknownOpcode (info : Int)
  /-- Code 2 (R222). Raised by the mode check of every opcode but 99; `info` is the instruction cell. Safe. -/
  | invalidAddressingMode (info : Int)
  /-- Code 3 (R223). Raised by the fetch, the parameter fetch and the operand resolution for an illegal address;
  `info` is that address. Safe. -/
  | invalidAddress (info : Int)
  /-- Code 4 (R224). Raised by `IN` when `INR` holds no value; `info` is the instruction cell. Safe. -/
  | inputUnset (info : Int)
  /-- Code 5 (R225). Raised on a finite `CELL_BITS` for a sum, a product, a relative base or a next `PC` outside
  `VAL`; `info` is the instruction cell. Safe. -/
  | valueOverflow (info : Int)
  deriving DecidableEq, Repr

/-- What does not happen. The first is `exec`'s; the others are the ports' (Machine/RunControl.lean), not a step's. -/
inductive Refusal where
  /-- An arm of `exec` for an instruction without a meaning. No arm answers it: all ten have one. Safe. -/
  | notModelled (mnemonic : String)
  /-- `write_input` of a value outside `VAL` (R208). Only on a finite `CELL_BITS`. Safe. -/
  | inputOutsideVal (v : Int)
  /-- `construct` with an image element or an input outside `VAL` (R261). Only on a finite `CELL_BITS`. Safe. -/
  | constructOutsideVal (v : Int)
  /-- `construct` with an image longer than `ADDR_MAX + 1` (R261). Only on a finite `CELL_BITS`. Safe. -/
  | imageTooLong (length : Nat)
  /-- The debug view `peek` of an illegal address, for which R44 gives no result (log 11). Safe. -/
  | peekIllegalAddress (a : Int)
  deriving DecidableEq, Repr

/-- One written cell of memory: its address and its value, a whole integer (R60, R66; log 4). -/
abbrev MemCell := Nat × Int

/-- `MEM` (R60): the cells that hold something else than 0, in strictly rising order of address. Every unlisted address
reads 0 (R61). -/
abbrev Mem := List MemCell

/-- The architectural state: exactly the seven elements of R21. -/
structure State where
  /-- `MEM` (R60) -/
  mem : Mem
  /-- `PC` (R23): may be any value, negative ones included -/
  pc : Int
  /-- `RB` (R24) -/
  rb : Int
  /-- `INR` (R25): a value, or `none` when no input was ever given -/
  inr : Option Int
  /-- `OUTQ` (R26), oldest element first -/
  outq : List Int
  /-- `HALTED` (R27) -/
  halted : Bool
  /-- `FAULT` (R29): `none`, or the fault that stopped the machine -/
  fault : Option Fault
  deriving DecidableEq, Repr

/-- The machine right after reset (R260): `construct` of the empty image (R261) without an input. Every element has the
value the spec gives it (R262). A program comes in from outside, as the image of a `construct` (log 7). -/
def State.reset : State :=
  { mem := [], pc := 0, rb := 0, inr := none, outq := [], halted := false, fault := none }

end Sys2Proof.Machine
end

