-- ==== Sys2Proof/Machine/Ops.lean ====
section
/-! DEFINITION. The operations on memory and on the whole state: read, write, canonical form, the placing of cells, the
effect of an action and its commit, and taking a fault (R60 to R64, R121, R132, R133, R229). -/

namespace Sys2Proof.Machine

/-! ## Memory -/

/-- The value at an address; an address that is not listed reads 0 (R61, R63). -/
def Mem.read : Mem → Nat → Int
  | [], _ => 0
  | (b, w) :: rest, a => if a = b then w else Mem.read rest a

/-- The memory without the cell at an address, so that it reads 0. -/
def Mem.drop : Mem → Nat → Mem
  | [], _ => []
  | (b, w) :: rest, a => if a = b then rest else (b, w) :: Mem.drop rest a

/-- The memory with a cell listed at its place in the order, replacing what stood there. -/
def Mem.put : Mem → Nat → Int → Mem
  | [], a, v => [(a, v)]
  | (b, w) :: rest, a, v =>
    if a < b then (a, v) :: (b, w) :: rest
    else if a = b then (a, v) :: rest
    else (b, w) :: Mem.put rest a v

/-- `MEM[a] <- v` (R64). Writing 0 removes the entry, so that equal memories are equal lists. -/
def Mem.write (m : Mem) (a : Nat) (v : Int) : Mem :=
  if v = 0 then Mem.drop m a else Mem.put m a v

/-- Every address of the list is above `lo`, they rise strictly, and no cell holds 0. -/
def Mem.wfAbove : Nat → Mem → Bool
  | _, [] => true
  | lo, (b, w) :: rest => decide (lo < b) && decide (w ≠ 0) && Mem.wfAbove b rest

/-- The canonical form: strictly rising addresses, and no entry equal to what an unlisted address reads as. -/
def Mem.wf : Mem → Bool
  | [] => true
  | (b, w) :: rest => decide (w ≠ 0) && Mem.wfAbove b rest

/-- The values written one after another from an address on: an image (R71), or the words of an instruction. -/
def Mem.place (m : Mem) (a : Nat) : List Int → Mem
  | [] => m
  | v :: rest => Mem.place (Mem.write m a v) (a + 1) rest

/-- The cell at a computed address. Its callers check `legalAddr` before they use the value (R65). -/
def readAt (s : State) (a : Int) : Int :=
  Mem.read s.mem a.toNat

/-- The instruction cell at `PC`, which the faults of an action record (R132, R220; log 6). -/
def cellAtPc (s : State) : Int :=
  readAt s s.pc

/-- The raw parameter cell at `PC + k` (R90, R126). The check of `PC + k` is `checkParam` (log 5). -/
def paramCell (s : State) (k : Nat) : Int :=
  readAt s (s.pc + k)

/-! ## Effect and commit (R121, R132, R133) -/

/-- What an action yields (R132): an optional cell write, an optional output, an optional new `RB`, whether it halts,
and the next `PC`. -/
structure Effect where
  write : Option (Nat × Int) := none
  output : Option Int := none
  newRb : Option Int := none
  halts : Bool := false
  nextPc : Int
  deriving DecidableEq, Repr

/-- The memory after an optional cell write. -/
def writeMem (m : Mem) : Option (Nat × Int) → Mem
  | none => m
  | some (a, v) => Mem.write m a v

/-- All the writes of a step at once (R121, R133, R134, R135). -/
def commit (e : Effect) (s : State) : State :=
  { s with
    mem := writeMem s.mem e.write
    pc := e.nextPc
    rb := e.newRb.getD s.rb
    outq := s.outq ++ e.output.toList
    halted := s.halted || e.halts }

/-- Taking a fault (R229): the only state change is `FAULT`; `PC` stays at the faulting instruction (R230), and control
goes to no handler (R231). There is no return from it (R233). -/
def raise (f : Fault) (s : State) : State :=
  { s with fault := some f }

/-- The end of a step that began in `s` (R121): it commits, or only the fault is recorded. -/
def settle (r : Except Fault Effect) (s : State) : State :=
  match r with
  | .ok e => commit e s
  | .error f => raise f s

/-- The outcome of a meaning: always a next state. -/
def finish (r : Except Fault Effect) (s : State) : Host.Outcome State Fault Refusal :=
  .next (settle r s)

end Sys2Proof.Machine
end

