-- ==== Sys2Proof/Machine/Operands.lean ====
section
/-! DEFINITION. The operand resolver: parameter fetch, every operand form, the address checks and the range checks
(R14, R126 to R131, R136). -/

namespace Sys2Proof.Machine

/-- A checked address (R131): `InvalidAddress` with the offending address as `info` (R223), else its cell. -/
def legalCell (P : Params) (a : Int) : Except Fault Nat :=
  if legalAddr P a then .ok a.toNat else .error (.invalidAddress a)

/-- The check of `FetchParam(k)` (R126). -/
def checkParam (P : Params) (s : State) (k : Nat) : Except Fault Unit :=
  if legalAddr P (s.pc + k) then .ok () else .error (.invalidAddress (s.pc + k))

/-- The address an IN operand is read from: none for an immediate one (R127 to R129). -/
def inAddr (s : State) : InOperand → Option Int
  | .position p => some p
  | .immediate _ => none
  | .relative p => some (p + s.rb)

/-- The address an OUT operand names (R130). -/
def outAddr (s : State) : OutOperand → Int
  | .position p => p
  | .relative p => p + s.rb

/-- The input value of an IN operand whose address, if it has one, is legal (R97). -/
def inValue (s : State) : InOperand → Int
  | .position p => readAt s p
  | .immediate v => v
  | .relative p => readAt s (p + s.rb)

/-- Resolving an IN operand does not fault: its address, if it has one, is legal (R131). -/
def inLegal (P : Params) (s : State) (o : InOperand) : Bool :=
  (inAddr s o).all (legalAddr P)

/-- Resolving an OUT operand does not fault (R131). -/
def outLegal (P : Params) (s : State) (o : OutOperand) : Bool :=
  legalAddr P (outAddr s o)

/-- The parameter cells `PC + 1` to `PC + n` can be fetched (R126). -/
def paramsLegal (P : Params) (s : State) (n : Nat) : Bool :=
  (List.range n).all fun j => legalAddr P (s.pc + (j + 1 : Nat))

/-- `ResolveIn` (R127, R128, R129). -/
def resolveIn (P : Params) (s : State) (o : InOperand) : Except Fault Int :=
  match inAddr s o with
  | none => .ok (inValue s o)
  | some a => if legalAddr P a then .ok (inValue s o) else .error (.invalidAddress a)

/-- `ResolveOut` (R130): the cell at the target is not read. -/
def resolveOut (P : Params) (s : State) (o : OutOperand) : Except Fault Nat :=
  legalCell P (outAddr s o)

/-- Parameter `k`, an IN: its fetch, then its resolution (R120). -/
def fetchIn (P : Params) (s : State) (k : Nat) (o : InOperand) : Except Fault Int := do
  checkParam P s k
  resolveIn P s o

/-- Parameter `k`, an OUT: its fetch, then its resolution (R120). -/
def fetchOut (P : Params) (s : State) (k : Nat) (o : OutOperand) : Except Fault Nat := do
  checkParam P s k
  resolveOut P s o

/-- A value about to be written to a cell, to `RB` or to `PC` (R14, R225). -/
def checkedVal (P : Params) (s : State) (v : Int) : Except Fault Int :=
  if inVal P v then .ok v else .error (.valueOverflow (cellAtPc s))

/-- The next `PC` after an instruction of this opcode that does not jump: `PC + 1 + n`, in range (R134 to R136). -/
def advance (P : Params) (s : State) (op : Opcode) : Except Fault Int :=
  checkedVal P s (s.pc + opcodeLength op)

/-- The shared course of `ADD`, `MUL`, `LT` and `EQ` (format `F3`): resolve the three parameters in order, compute,
check the result, write it, advance (R120, R132 to R134). -/
def effectF3 (P : Params) (op : Opcode) (f : Int → Int → Int) (a b : InOperand) (d : OutOperand) (s : State) :
    Except Fault Effect := do
  let x ← fetchIn P s 1 a
  let y ← fetchIn P s 2 b
  let dst ← fetchOut P s 3 d
  let r ← checkedVal P s (f x y)
  let next ← advance P s op
  return { write := some (dst, r), nextPc := next }

/-- The shared course of the two jumps (format `F2`): both parameters are resolved whether or not the jump is taken,
and a taken jump loads its target unchecked (R171 to R173). -/
def effectJump (P : Params) (op : Opcode) (taken : Int → Bool) (a t : InOperand) (s : State) :
    Except Fault Effect := do
  let x ← fetchIn P s 1 a
  let y ← fetchIn P s 2 t
  if taken x then return { nextPc := y }
  else
    let next ← advance P s op
    return { nextPc := next }

end Sys2Proof.Machine
end

