-- ==== Sys2Proof/Machine/Arithmetic.lean ====
section
/-! DEFINITION. `ADD` and `MUL`, the arithmetic of the alu_engine (R150 to R153). -/

namespace Sys2Proof.Machine

/-- `ADD` (R150): the exact sum, `ValueOverflow` when it is outside `VAL`. -/
def addEffect (P : Params) (a b : InOperand) (d : OutOperand) (s : State) : Except Fault Effect :=
  effectF3 P .add (fun x y => x + y) a b d s

/-- `MUL` (R151): the exact product, `ValueOverflow` when it is outside `VAL`. -/
def mulEffect (P : Params) (a b : InOperand) (d : OutOperand) (s : State) : Except Fault Effect :=
  effectF3 P .mul (fun x y => x * y) a b d s

/-- `ADD` on this hardware (R150). -/
def execAdd (a b : InOperand) (d : OutOperand) (s : State) : Host.Outcome State Fault Refusal :=
  finish (addEffect hardware a b d s) s

/-- `MUL` on this hardware (R151). -/
def execMul (a b : InOperand) (d : OutOperand) (s : State) : Host.Outcome State Fault Refusal :=
  finish (mulEffect hardware a b d s) s

end Sys2Proof.Machine
end

