-- ==== Sys2Proof/Machine/Flags.lean ====
section
/-! DEFINITION. The machine has no condition codes (R28): its only flags are `HALTED` and `FAULT`, and what is computed
from a comparison is the 0 or 1 of R182 and the tests of R170. -/

namespace Sys2Proof.Machine

/-- The numeric code of a cause (R220). -/
def faultCode : Fault → Nat
  | .unknownOpcode _ => 1
  | .invalidAddressingMode _ => 2
  | .invalidAddress _ => 3
  | .inputUnset _ => 4
  | .valueOverflow _ => 5

/-- The integer a fault records (R220, R232). -/
def faultInfo : Fault → Int
  | .unknownOpcode v => v
  | .invalidAddressingMode v => v
  | .invalidAddress v => v
  | .inputUnset v => v
  | .valueOverflow v => v

/-- A step executes an instruction: neither faulted nor halted (R120, R203). -/
def running (s : State) : Bool :=
  s.fault.isNone && !s.halted

/-- The 0 or 1 a comparison writes (R180 to R182). -/
def truthValue (b : Bool) : Int :=
  if b then 1 else 0

/-- `in_1 < in_2`, signed (R180). -/
def lessThan (x y : Int) : Bool := decide (x < y)

/-- `in_1 = in_2` (R181). -/
def equalTo (x y : Int) : Bool := decide (x = y)

/-- `in_1 = 0`, the test of both jumps (R170). -/
def isZero (x : Int) : Bool := decide (x = 0)

end Sys2Proof.Machine
end

