-- ==== Sys2Proof/Machine/Compare.lean ====
section
/-! DEFINITION. `LT` and `EQ`, the comparisons of the alu_engine (R180 to R183). -/

namespace Sys2Proof.Machine

/-- `LT` (R180): 1 when the first input is less than the second, signed, else 0. -/
def ltEffect (P : Params) (a b : InOperand) (d : OutOperand) (s : State) : Except Fault Effect :=
  effectF3 P .lt (fun x y => truthValue (lessThan x y)) a b d s

/-- `EQ` (R181): 1 when the inputs are equal, else 0. -/
def eqEffect (P : Params) (a b : InOperand) (d : OutOperand) (s : State) : Except Fault Effect :=
  effectF3 P .eq (fun x y => truthValue (equalTo x y)) a b d s

/-- `LT` on this hardware (R180). -/
def execLt (a b : InOperand) (d : OutOperand) (s : State) : Host.Outcome State Fault Refusal :=
  finish (ltEffect hardware a b d s) s

/-- `EQ` on this hardware (R181). -/
def execEq (a b : InOperand) (d : OutOperand) (s : State) : Host.Outcome State Fault Refusal :=
  finish (eqEffect hardware a b d s) s

end Sys2Proof.Machine
end

