-- ==== Sys2Proof/Machine/Halt.lean ====
section
/-! DEFINITION. `HLT` (R195 to R198). -/

namespace Sys2Proof.Machine

/-- `HLT` (R195): `HALTED <- true`; `PC` stays on the `HLT` cell (R135). No parameter cell is read. -/
def hltEffect (s : State) : Except Fault Effect :=
  .ok { halts := true, nextPc := s.pc }

/-- `HLT` on this hardware (R195). -/
def execHlt (s : State) : Host.Outcome State Fault Refusal :=
  finish (hltEffect s) s

end Sys2Proof.Machine
end

