-- ==== Sys2Proof/Machine/InputOutput.lean ====
section
/-! DEFINITION. `IN` and `OUT` (R160 to R164). -/

namespace Sys2Proof.Machine

/-- What `IN` reads: the pending input, which stays (R161), or `InputUnset` (R160, R224). -/
def readInput (s : State) : Except Fault Int :=
  match s.inr with
  | some v => .ok v
  | none => .error (.inputUnset (cellAtPc s))

/-- `IN` (R160): the output address is resolved before `INR` is looked at. -/
def inEffect (P : Params) (d : OutOperand) (s : State) : Except Fault Effect := do
  let dst ← fetchOut P s 1 d
  let v ← readInput s
  let next ← advance P s .inp
  return { write := some (dst, v), nextPc := next }

/-- `OUT` (R162): exactly one element is appended. -/
def outEffect (P : Params) (a : InOperand) (s : State) : Except Fault Effect := do
  let x ← fetchIn P s 1 a
  let next ← advance P s .out
  return { output := some x, nextPc := next }

/-- `IN` on this hardware (R160). -/
def execIn (d : OutOperand) (s : State) : Host.Outcome State Fault Refusal :=
  finish (inEffect hardware d s) s

/-- `OUT` on this hardware (R162). -/
def execOut (a : InOperand) (s : State) : Host.Outcome State Fault Refusal :=
  finish (outEffect hardware a s) s

end Sys2Proof.Machine
end

