-- ==== Sys2Proof/Machine/Jumps.lean ====
section
/-! DEFINITION. `JNZ` and `JZ` (R170 to R174). -/

namespace Sys2Proof.Machine

/-- `JNZ` (R171): taken when the first input is not zero. -/
def jnzEffect (P : Params) (a t : InOperand) (s : State) : Except Fault Effect :=
  effectJump P .jnz (fun x => !isZero x) a t s

/-- `JZ` (R173): taken when the first input is zero. -/
def jzEffect (P : Params) (a t : InOperand) (s : State) : Except Fault Effect :=
  effectJump P .jz isZero a t s

/-- `JNZ` on this hardware (R171). -/
def execJnz (a t : InOperand) (s : State) : Host.Outcome State Fault Refusal :=
  finish (jnzEffect hardware a t s) s

/-- `JZ` on this hardware (R173). -/
def execJz (a t : InOperand) (s : State) : Host.Outcome State Fault Refusal :=
  finish (jzEffect hardware a t s) s

end Sys2Proof.Machine
end

