-- ==== Sys2Proof/Machine/RelBase.lean ====
section
/-! DEFINITION. `ARB`, the only writer of the relative base (R190 to R192). -/

namespace Sys2Proof.Machine

/-- `ARB` (R190): `RB <- RB + in_1`, its own parameter resolved with the old `RB`. -/
def arbEffect (P : Params) (a : InOperand) (s : State) : Except Fault Effect := do
  let x ← fetchIn P s 1 a
  let b ← checkedVal P s (s.rb + x)
  let next ← advance P s .arb
  return { newRb := some b, nextPc := next }

/-- `ARB` on this hardware (R190). -/
def execArb (a : InOperand) (s : State) : Host.Outcome State Fault Refusal :=
  finish (arbEffect hardware a s) s

end Sys2Proof.Machine
end

