-- ==== Sys2Proof/Machine/Dispatch.lean ====
section
/-! DEFINITION. One arm for each instruction: the execute phase of a step (R132). -/

namespace Sys2Proof.Machine

def exec (i : Instr) (s : State) : Host.Outcome State Fault Refusal :=
  match i with
  | .add a b d => Sys2Proof.Machine.execAdd a b d s
  | .mul a b d => Sys2Proof.Machine.execMul a b d s
  | .inp d => Sys2Proof.Machine.execIn d s
  | .out a => Sys2Proof.Machine.execOut a s
  | .jnz a t => Sys2Proof.Machine.execJnz a t s
  | .jz a t => Sys2Proof.Machine.execJz a t s
  | .lt a b d => Sys2Proof.Machine.execLt a b d s
  | .eq a b d => Sys2Proof.Machine.execEq a b d s
  | .arb a => Sys2Proof.Machine.execArb a s
  | .hlt => Sys2Proof.Machine.execHlt s

end Sys2Proof.Machine
end

