-- ==== Sys2Proof/Machine/Fetch.lean ====
section
/-! DEFINITION. The fetch_decode_unit: the fetch of the instruction cell, and its decoding with the parameter cells that
follow it (R122 to R125). -/

namespace Sys2Proof.Machine

/-- `Fetch` (R122): the cell at `PC`, or `InvalidAddress(PC)`. -/
def fetchCell (P : Params) (s : State) : Except Fault Int :=
  if legalAddr P s.pc then .ok (cellAtPc s) else .error (.invalidAddress s.pc)

/-- The fault a rejected instruction cell raises (R124, R125, R220). -/
def rejectFault : Reject → Fault
  | .unknownOpcode cell => .unknownOpcode cell
  | .invalidAddressingMode cell => .invalidAddressingMode cell

/-- The decoder at `PC`: the instruction cell and the three cells after it. -/
def decodeAtPc (P : Params) (s : State) : Except Reject Instr :=
  decode P (cellAtPc s) (paramCell s 1) (paramCell s 2) (paramCell s 3)

/-- Fetch, decode, lookup and mode check, in the order of R120: what a running state is about to execute. -/
def fetchInstr (P : Params) (s : State) : Except Fault Instr := do
  let _ ← fetchCell P s
  match decodeAtPc P s with
  | .ok i => return i
  | .error r => throw (rejectFault r)

end Sys2Proof.Machine
end

