-- ==== Sys2Proof/Machine/Step.lean ====
section
/-! DEFINITION. One step of this hardware (R120), and the state in which the next step runs a given instruction. -/

namespace Sys2Proof.Machine

/-- `Step()` (R120). A faulted or halted machine does not change. What the command `step` returns beside the state is
`stepCommand` (Machine/RunControl.lean). -/
def step (s : State) : Host.Outcome State Fault Refusal :=
  if running s then
    match fetchInstr hardware s with
    | .ok i => exec i s
    | .error f => .next (raise f s)
  else .next s

/-- The address the next step fetches from: `PC`, or 0 where `PC` is illegal. -/
def fetchPc (s : State) : Int :=
  if legalAddr hardware s.pc then s.pc else 0

/-- `s` about to run the instruction whose cell the host's bits spell, with parameter cells of 0 after it: those cells
stand where the next step fetches, and the machine is neither halted nor faulted (log 8). -/
def State.withFetchWord (s : State) (nbits w : Nat) : State :=
  { s with
    mem := Mem.place s.mem (fetchPc s).toNat [tableCell nbits w, 0, 0, 0]
    pc := fetchPc s
    halted := false
    fault := none }

end Sys2Proof.Machine
end

