-- ==== Sys2Proof/Machine/Assembler.lean ====
section
/-! DEFINITION. The notation of the spec's listings (R107 to R111): an assembler over items already parsed, and a
disassembler to text. It has no meaning for the machine: the integer list is the program. -/

namespace Sys2Proof

/-- An operand value `v` of R108: a number or a label. -/
inductive AsmVal where
  | num (v : Int)
  | label (name : String)
  deriving DecidableEq, Repr

/-- The three operand forms of R108: `[v]`, `#v`, `[RB+v]`. -/
inductive AsmOperand where
  | position (v : AsmVal)
  | immediate (v : AsmVal)
  | relative (v : AsmVal)
  deriving DecidableEq, Repr

/-- One item of a listing: a label before what follows, an instruction, or `DATA` (R109). -/
inductive AsmItem where
  | label (name : String)
  | instr (op : Opcode) (operands : List AsmOperand)
  | data (vs : List Int)
  deriving DecidableEq, Repr

/-- How many cells an item emits (R94, R109). -/
def asmLength : AsmItem → Nat
  | .label _ => 0
  | .instr op _ => opcodeLength op
  | .data vs => vs.length

/-- The address of every label: the address of the next emitted cell (R109). -/
def asmLabels : Nat → List AsmItem → List (String × Nat)
  | _, [] => []
  | at_, .label name :: rest => (name, at_) :: asmLabels at_ rest
  | at_, item :: rest => asmLabels (at_ + asmLength item) rest

/-- The number an operand value stands for; none for a label nobody defined. -/
def asmValue (labels : List (String × Nat)) : AsmVal → Option Int
  | .num v => some v
  | .label name => (labels.lookup name).map Int.ofNat

/-- The mode digit and the raw parameter of an operand in a role; an OUT operand is never immediate (R98, R108). -/
def asmOperand (labels : List (String × Nat)) : Role → AsmOperand → Option (Int × Int)
  | _, .position v => (asmValue labels v).map fun p => (0, p)
  | .input, .immediate v => (asmValue labels v).map fun p => (1, p)
  | .output, .immediate _ => none
  | _, .relative v => (asmValue labels v).map fun p => (2, p)

/-- The operands against the shape, one for one. -/
def asmOperands (labels : List (String × Nat)) : List Role → List AsmOperand → Option (List (Int × Int))
  | [], [] => some []
  | r :: roles, o :: operands => do
    let x ← asmOperand labels r o
    let xs ← asmOperands labels roles operands
    return x :: xs
  | _, _ => none

/-- `100*mode1 + 1000*mode2 + 10000*mode3` (R108). -/
def asmModes (digits : List Int) : Int :=
  100 * digits.getD 0 0 + 1000 * digits.getD 1 0 + 10000 * digits.getD 2 0

/-- The cells one item emits (R108, R109). -/
def asmItem (labels : List (String × Nat)) : AsmItem → Option (List Int)
  | .label _ => some []
  | .data vs => some vs
  | .instr op operands => do
    let xs ← asmOperands labels (opcodeShape op) operands
    return (opcodeNumber op + asmModes (xs.map Prod.fst)) :: xs.map Prod.snd

/-- The image of a listing, its first cell at address 0 (R109); none when an operand does not fit its role or a label
is missing. -/
def assemble (items : List AsmItem) : Option (List Int) := do
  let cells ← items.mapM (asmItem (asmLabels 0 items))
  return cells.flatten

/-- An IN operand as a listing writes it. -/
def asmOfIn : InOperand → AsmOperand
  | .position p => .position (.num p)
  | .immediate v => .immediate (.num v)
  | .relative p => .relative (.num p)

/-- An OUT operand as a listing writes it. -/
def asmOfOut : OutOperand → AsmOperand
  | .position p => .position (.num p)
  | .relative p => .relative (.num p)

/-- The operands of an instruction as a listing writes them, in parameter order (R108). -/
def asmOperandsOf : Instr → List AsmOperand
  | .add a b d | .mul a b d | .lt a b d | .eq a b d => [asmOfIn a, asmOfIn b, asmOfOut d]
  | .inp d => [asmOfOut d]
  | .out a | .arb a => [asmOfIn a]
  | .jnz a t | .jz a t => [asmOfIn a, asmOfIn t]
  | .hlt => []

/-- An instruction as one item of a listing. -/
def asmOf (i : Instr) : AsmItem :=
  .instr i.opcode (asmOperandsOf i)

/-! ## Text -/

/-- The mnemonic (R107). -/
def mnemonic : Opcode → String
  | .add => "ADD"
  | .mul => "MUL"
  | .inp => "IN"
  | .out => "OUT"
  | .jnz => "JNZ"
  | .jz => "JZ"
  | .lt => "LT"
  | .eq => "EQ"
  | .arb => "ARB"
  | .hlt => "HLT"

/-- `[RB+v]`, or `[RB-v]` for a negative raw parameter (R108). -/
def relativeText (p : Int) : String :=
  if p < 0 then "[RB" ++ toString p ++ "]" else "[RB+" ++ toString p ++ "]"

/-- An IN operand in the syntax of R108. -/
def inText : InOperand → String
  | .position p => "[" ++ toString p ++ "]"
  | .immediate v => "#" ++ toString v
  | .relative p => relativeText p

/-- An OUT operand in the syntax of R108. -/
def outText : OutOperand → String
  | .position p => "[" ++ toString p ++ "]"
  | .relative p => relativeText p

/-- The operands of an instruction as text, in parameter order. -/
def operandTexts : Instr → List String
  | .add a b d | .mul a b d | .lt a b d | .eq a b d => [inText a, inText b, outText d]
  | .inp d => [outText d]
  | .out a | .arb a => [inText a]
  | .jnz a t | .jz a t => [inText a, inText t]
  | .hlt => []

/-- An instruction in the syntax of R108. -/
def instrText (i : Instr) : String :=
  match operandTexts i with
  | [] => mnemonic i.opcode
  | ts => mnemonic i.opcode ++ " " ++ String.intercalate ", " ts

/-- One line of a disassembly from the first of these cells, `DATA v` where it is no legal instruction (R111). -/
def disassemble (P : Params) (cells : List Int) : String :=
  match decodeWords P cells with
  | .ok i => instrText i
  | .error _ => "DATA " ++ toString (cells.getD 0 0)

end Sys2Proof
end

