-- ==== Sys2Proof/Machine/Execute.lean ====
section
/-! DEFINITION. The execute phase and one step for any parameter values (R5, R7, R9), of which `exec` and `step` are
those of `hardware`. A finite machine (R152, R136, R225) is `stepCommand hardware64`. -/

namespace Sys2Proof.Machine

/-- The action of an instruction (R132): its effect, or the fault that abandons the step. -/
def effectOf (P : Params) (i : Instr) (s : State) : Except Fault Effect :=
  match i with
  | .add a b d => addEffect P a b d s
  | .mul a b d => mulEffect P a b d s
  | .inp d => inEffect P d s
  | .out a => outEffect P a s
  | .jnz a t => jnzEffect P a t s
  | .jz a t => jzEffect P a t s
  | .lt a b d => ltEffect P a b d s
  | .eq a b d => eqEffect P a b d s
  | .arb a => arbEffect P a s
  | .hlt => hltEffect s

/-- What a step of a running state comes to, before it commits (R120): fetch, decode, resolve, act. -/
def transition (P : Params) (s : State) : Except Fault Effect := do
  let i ← fetchInstr P s
  effectOf P i s

/-- What the command `step` returns (R16, R120). -/
inductive StepResult where
  | stepped
  | alreadyHalted
  | faulted (f : Fault)
  deriving DecidableEq, Repr

/-- The command `step` (R120, R200): the state after it, and what it returns. -/
def stepCommand (P : Params) (s : State) : State × StepResult :=
  match s.fault with
  | some f => (s, .faulted f)
  | none =>
    if s.halted then (s, .alreadyHalted)
    else
      match transition P s with
      | .ok e => (commit e s, .stepped)
      | .error f => (raise f s, .faulted f)

end Sys2Proof.Machine
end

