-- ==== Sys2Proof/Machine/Reference.lean ====
section
/-! DEFINITION. The pseudocode of R120 transcribed phase by phase, with the opcode table as data and the operands read
by number, not through `Instr`. It is a second reading of the same rules: the refinement statement says that
`stepCommand` is this function, for all parameter values and all states. -/

namespace Sys2Proof.Machine

/-- One row of the table of R100. -/
structure TableRow where
  number : Int
  opcode : Opcode
  shape : List Role
  managesPc : Bool
  deriving DecidableEq, Repr

/-- The table of R100, row by row. -/
def opcodeTable : List TableRow :=
  [⟨1, .add, [.input, .input, .output], false⟩,
   ⟨2, .mul, [.input, .input, .output], false⟩,
   ⟨3, .inp, [.output], false⟩,
   ⟨4, .out, [.input], false⟩,
   ⟨5, .jnz, [.input, .input], true⟩,
   ⟨6, .jz, [.input, .input], true⟩,
   ⟨7, .lt, [.input, .input, .output], false⟩,
   ⟨8, .eq, [.input, .input, .output], false⟩,
   ⟨9, .arb, [.input], false⟩,
   ⟨99, .hlt, [], true⟩]

/-- `Lookup(opcode, cell)` (R124). -/
def refLookup (P : Params) (cell : Int) : Except Fault TableRow :=
  match opcodeTable.find? (fun r => r.number == opcodeField P cell) with
  | some r => .ok r
  | none => .error (.unknownOpcode cell)

/-- Whether a mode digit is legal for a role (R102). -/
def modeLegal (r : Role) (mode : Int) : Bool :=
  match r with
  | .input => mode == 0 || mode == 1 || mode == 2
  | .output => mode == 0 || mode == 2

/-- The loop of R125 over the parameters from `k` on. -/
def refModesLegal (P : Params) (cell : Int) : Nat → List Role → Bool
  | _, [] => true
  | k, r :: roles => modeLegal r (modeField P k cell) && refModesLegal P cell (k + 1) roles

/-- Some mode digit of a position above `n`, or a digit at `10^5` or above, is set (R125). -/
def refUnusedSet (P : Params) (n : Nat) (cell : Int) : Bool :=
  [1, 2, 3].any (fun k => decide (n < k) && modeField P k cell != 0) || fdiv cell 100000 != 0

/-- `CheckModes` (R125). -/
def refCheckModes (P : Params) (row : TableRow) (cell : Int) : Except Fault Unit :=
  if !refModesLegal P cell 1 row.shape then .error (.invalidAddressingMode cell)
  else if P.unusedDigits == .fault && refUnusedSet P row.shape.length cell then
    .error (.invalidAddressingMode cell)
  else .ok ()

/-- `FetchParam(k)` (R126). -/
def refFetchParam (P : Params) (s : State) (k : Nat) : Except Fault Int :=
  if legalAddr P (s.pc + k) then .ok (readAt s (s.pc + k)) else .error (.invalidAddress (s.pc + k))

/-- `MemRead(a, 1)` behind the address check (R63, R65). -/
def refRead (P : Params) (s : State) (a : Int) : Except Fault Int :=
  if legalAddr P a then .ok (readAt s a) else .error (.invalidAddress a)

/-- `ResolveIn(p, m)` (R127 to R129). -/
def refResolveIn (P : Params) (s : State) (p mode : Int) : Except Fault Int :=
  if mode = 1 then .ok p
  else if mode = 0 then refRead P s p
  else refRead P s (p + s.rb)

/-- `ResolveOut(p, m)` (R130). -/
def refResolveOut (P : Params) (s : State) (p mode : Int) : Except Fault Int :=
  let dst := if mode = 0 then p else p + s.rb
  if legalAddr P dst then .ok dst else .error (.invalidAddress dst)

/-- What the loop of R120 binds for one parameter: `in_k`, or `dst`. -/
def refParam (P : Params) (s : State) (cell : Int) (k : Nat) (r : Role) : Except Fault Int := do
  let p ← refFetchParam P s k
  match r with
  | .input => refResolveIn P s p (modeField P k cell)
  | .output => refResolveOut P s p (modeField P k cell)

/-- The loop of R120: the parameters from `k` on, in ascending order. -/
def refParams (P : Params) (s : State) (cell : Int) : Nat → List Role → Except Fault (List Int)
  | _, [] => .ok []
  | k, r :: roles => do
    let x ← refParam P s cell k r
    let xs ← refParams P s cell (k + 1) roles
    return x :: xs

/-- A value checked with `inVAL`, or `ValueOverflow(cell)` (R14, R225). -/
def refChecked (P : Params) (cell v : Int) : Except Fault Int :=
  if inVal P v then .ok v else .error (.valueOverflow cell)

/-- The pseudocode of an opcode's own rule: the state after the step, given the bound values `in_1`, `in_2`, `dst` in
parameter order (R150, R151, R160, R162, R171, R173, R180, R181, R190, R195). -/
def refAction (P : Params) (s : State) (cell : Int) (op : Opcode) (bound : List Int) : Except Fault State := do
  let v1 := bound.getD 0 0
  let v2 := bound.getD 1 0
  let v3 := bound.getD 2 0
  match op with
  | .add =>
    let r ← refChecked P cell (v1 + v2)
    let pc ← refChecked P cell (s.pc + 4)
    return { s with mem := Mem.write s.mem v3.toNat r, pc := pc }
  | .mul =>
    let r ← refChecked P cell (v1 * v2)
    let pc ← refChecked P cell (s.pc + 4)
    return { s with mem := Mem.write s.mem v3.toNat r, pc := pc }
  | .inp =>
    match s.inr with
    | none => throw (.inputUnset cell)
    | some v =>
      let pc ← refChecked P cell (s.pc + 2)
      return { s with mem := Mem.write s.mem v1.toNat v, pc := pc }
  | .out =>
    let pc ← refChecked P cell (s.pc + 2)
    return { s with outq := s.outq ++ [v1], pc := pc }
  | .jnz =>
    if v1 ≠ 0 then return { s with pc := v2 }
    else
      let pc ← refChecked P cell (s.pc + 3)
      return { s with pc := pc }
  | .jz =>
    if v1 = 0 then return { s with pc := v2 }
    else
      let pc ← refChecked P cell (s.pc + 3)
      return { s with pc := pc }
  | .lt =>
    let pc ← refChecked P cell (s.pc + 4)
    return { s with mem := Mem.write s.mem v3.toNat (if v1 < v2 then 1 else 0), pc := pc }
  | .eq =>
    let pc ← refChecked P cell (s.pc + 4)
    return { s with mem := Mem.write s.mem v3.toNat (if v1 = v2 then 1 else 0), pc := pc }
  | .arb =>
    let b ← refChecked P cell (s.rb + v1)
    let pc ← refChecked P cell (s.pc + 2)
    return { s with rb := b, pc := pc }
  | .hlt => return { s with halted := true }

/-- The phases of R120 between the guards and the return. -/
def refPhases (P : Params) (s : State) : Except Fault State := do
  let cell ← refRead P s s.pc
  let row ← refLookup P cell
  refCheckModes P row cell
  let bound ← refParams P s cell 1 row.shape
  refAction P s cell row.opcode bound

/-- `Step()` as R120 writes it. -/
def refStep (P : Params) (s : State) : State × StepResult :=
  match s.fault with
  | some f => (s, .faulted f)
  | none =>
    if s.halted then (s, .alreadyHalted)
    else
      match refPhases P s with
      | .ok t => (t, .stepped)
      | .error f => ({ s with fault := some f }, .faulted f)

end Sys2Proof.Machine
end

