-- ==== Sys2Proof/Machine/RunControl.lean ====
section
/-! DEFINITION. The controller's commands and the ports (R41 to R44, R200 to R212, R260 to R264). They are no
instructions: the controller gives them, one after another (R40, R209; log 10). -/

namespace Sys2Proof.Machine

/-! ## construct (R260, R261) -/

/-- The first value of a list that is not a member of `VAL`. -/
def firstOutside (P : Params) (vs : List Int) : Option Int :=
  vs.find? fun v => !inVal P v

/-- `len(image) ≤ ADDR_MAX + 1` (R261). -/
def imageFits (P : Params) (image : List Int) : Bool :=
  leValMax P ((image.length : Int) - 1)

/-- The state `construct` makes (R260): the image from address 0, every other cell 0. -/
def constructed (image : List Int) (input : Option Int) : State :=
  { State.reset with mem := Mem.place [] 0 image, inr := input }

/-- The state after `construct`, or why it does not happen (R261). The state before it plays no part (R264). -/
def construct (P : Params) (image : List Int) (input : Option Int) : Except Refusal State :=
  match firstOutside P (image ++ input.toList) with
  | some v => .error (.constructOutsideVal v)
  | none => if imageFits P image then .ok (constructed image input) else .error (.imageTooLong image.length)

/-! ## The other port operations -/

/-- `write_input(v)` (R208): allowed in every state, changes `INR` alone. -/
def writeInput (P : Params) (v : Int) (s : State) : Except Refusal State :=
  if inVal P v then .ok { s with inr := some v } else .error (.inputOutsideVal v)

/-- The debug view `peek` (R44). -/
def peek (P : Params) (s : State) (a : Int) : Except Refusal Int :=
  if legalAddr P a then .ok (readAt s a) else .error (.peekIllegalAddress a)

/-! ## run (R201, R202) -/

/-- What `run` returns (R201). -/
inductive RunResult where
  | halted
  | faulted (f : Fault)
  deriving DecidableEq, Repr

/-- Why `run` stops in a state, if it does (R201, R203). -/
def runExit (s : State) : Option RunResult :=
  match s.fault with
  | some f => some (.faulted f)
  | none => if s.halted then some .halted else none

/-- `run` for at most `fuel` steps (R201): the state reached, and what `run` returns there; none when it has not
returned yet (R202; log 9). -/
def run (P : Params) : Nat → State → State × Option RunResult
  | 0, s => (s, runExit s)
  | fuel + 1, s =>
    match runExit s with
    | some r => (s, some r)
    | none => run P fuel (stepCommand P s).1

/-- `run` called in `s` returns `r` and leaves `t`. -/
def RunReturns (P : Params) (s t : State) (r : RunResult) : Prop :=
  ∃ fuel, run P fuel s = (t, some r)

/-! ## run_until_output (R204 to R206) -/

/-- What `run_until_output` returns (R204). -/
inductive OutputResult where
  | output (v : Int)
  | haltedNoOutput
  | faulted (f : Fault)
  deriving DecidableEq, Repr

/-- Why the loop of R204 ends after a step that returned `r` and left `s`, if it does; `len` is the length of `OUTQ`
when the command was called. -/
def outputExit (len : Nat) (s : State) (r : StepResult) : Option OutputResult :=
  match r with
  | .faulted f => some (.faulted f)
  | _ =>
    if h : s.outq.length = len + 1 then some (.output (s.outq[len]'(by omega)))
    else if s.halted then some .haltedNoOutput
    else none

/-- The loop of R204 for at most `fuel` steps. -/
def outputLoop (P : Params) (len : Nat) : Nat → State → State × Option OutputResult
  | 0, s => (s, none)
  | fuel + 1, s =>
    match outputExit len (stepCommand P s).1 (stepCommand P s).2 with
    | some r => ((stepCommand P s).1, some r)
    | none => outputLoop P len fuel (stepCommand P s).1

/-- `run_until_output` for at most `fuel` steps (R204): the state reached, and what it returns; none when it has not
returned yet. -/
def runUntilOutput (P : Params) (fuel : Nat) (s : State) : State × Option OutputResult :=
  match s.fault with
  | some f => (s, some (.faulted f))
  | none => if s.halted then (s, some .haltedNoOutput) else outputLoop P s.outq.length fuel s

/-- `run_until_output` called in `s` returns `r` and leaves `t`. -/
def OutputReturns (P : Params) (s t : State) (r : OutputResult) : Prop :=
  ∃ fuel, runUntilOutput P fuel s = (t, some r)

/-! ## All commands -/

/-- What a controller may ask of the block (R41, R43, R44). The two loops take the fuel they run under. -/
inductive Command where
  | construct (image : List Int) (input : Option Int)
  | step
  | run (fuel : Nat)
  | runUntilOutput (fuel : Nat)
  | writeInput (v : Int)
  | outputs
  | halted
  | fault
  | peek (a : Int)
  | pc
  | rb
  deriving DecidableEq, Repr

/-- What a command answers. -/
inductive Response where
  | done
  | refused (r : Refusal)
  | stepReturned (r : StepResult)
  | runReturned (r : Option RunResult)
  | outputReturned (r : Option OutputResult)
  | values (vs : List Int)
  | flag (b : Bool)
  | faultView (f : Option Fault)
  | value (v : Int)
  deriving DecidableEq, Repr

/-- The answer of a port that may refuse and otherwise changes the state: a refusal leaves the state as it was. -/
def portAnswer (s : State) : Except Refusal State → State × Response
  | .ok t => (t, .done)
  | .error r => (s, .refused r)

/-- One command (R40): the state after it and its answer. Where a loop has not returned under its fuel the state is one
inside the loop, which no controller sees (R209): `commands` gives no command there. -/
def command (P : Params) (c : Command) (s : State) : State × Response :=
  match c with
  | .construct image input => portAnswer s (construct P image input)
  | .step => ((stepCommand P s).1, .stepReturned (stepCommand P s).2)
  | .run fuel => ((run P fuel s).1, .runReturned (run P fuel s).2)
  | .runUntilOutput fuel => ((runUntilOutput P fuel s).1, .outputReturned (runUntilOutput P fuel s).2)
  | .writeInput v => portAnswer s (writeInput P v s)
  | .outputs => (s, .values s.outq)
  | .halted => (s, .flag s.halted)
  | .fault => (s, .faultView s.fault)
  | .peek a =>
    match peek P s a with
    | .ok v => (s, .value v)
    | .error r => (s, .refused r)
  | .pc => (s, .value s.pc)
  | .rb => (s, .value s.rb)

/-- The command has returned. `run` and `run_until_output` that used up their fuel have not (R202): they are still in
progress, in the state reached. -/
def Response.returned : Response → Bool
  | .runReturned r => r.isSome
  | .outputReturned r => r.isSome
  | .done | .refused _ | .stepReturned _ | .values _ | .flag _ | .faultView _ | .value _ => true

/-- Commands one after another, and their answers in order. A command is given only when the one before it has returned:
while one is in progress the controller has no move (R209, R275). So a loop that used up its fuel is the last command
performed, and those after it in the list are not (the model's choice of how fuel meets R209, log 9). -/
def commands (P : Params) : List Command → State → State × List Response
  | [], s => (s, [])
  | c :: rest, s =>
    let (t, r) := command P c s
    if r.returned then
      let (u, rs) := commands P rest t
      (u, r :: rs)
    else (t, [r])

end Sys2Proof.Machine
end

