-- ==== Sys2Proof/Safety.lean ====
section
/-! DEFINITION. What counts as a good end of a run, and the invariant of every reachable state (R5, R21, R64, R197,
R203). -/

namespace Sys2Proof.Machine

/-- The one good end of a run (R197, R203). -/
def State.Final (s : State) : Prop :=
  s.halted = true ∧ s.fault = none

/-- Stopped by a fault: the bad end (R203). -/
def State.Stopped (s : State) : Prop :=
  s.fault.isSome = true

/-- A listed cell is at a legal address and holds a member of `VAL` (R60, R64). -/
def cellLegal (P : Params) (c : MemCell) : Bool :=
  legalAddr P c.1 && inVal P c.2

/-- The invariant, for the machine with these parameters: the memory is in canonical form and its cells are legal; `PC`,
`RB`, `INR` and every element of `OUTQ` are members of `VAL` (R5, R21); a faulted machine is not halted (R197). -/
structure State.Inv (P : Params) (s : State) : Prop where
  memWf : Mem.wf s.mem = true
  memLegal : s.mem.all (cellLegal P) = true
  pcVal : inVal P s.pc = true
  rbVal : inVal P s.rb = true
  inrVal : s.inr.all (inVal P) = true
  outqVal : s.outq.all (inVal P) = true
  oneEnd : s.halted = true → s.fault = none

/-- How the end of a `run` reads as an end of `run_until_output` (R207). -/
def asOutputResult : RunResult → OutputResult
  | .halted => .haltedNoOutput
  | .faulted f => .faulted f

/-- Calling `run_until_output` from `s` until it returns something else than an output: it returns the values `vs` in
order, then `r`, and leaves `t` (R207). -/
def OutputSession (P : Params) : List Int → State → State → OutputResult → Prop
  | [], s, t, r => OutputReturns P s t r ∧ ∀ v, r ≠ .output v
  | v :: vs, s, t, r => ∃ u, OutputReturns P s u (.output v) ∧ OutputSession P vs u t r

/-- The commands under which the block executes, or starts anew; the others only read, or write `INR` (R34). -/
def Command.executes : Command → Bool
  | .step | .run _ | .runUntilOutput _ => true
  | _ => false

/-- The command `construct` (R260). -/
def Command.constructs : Command → Bool
  | .construct _ _ => true
  | _ => false

end Sys2Proof.Machine
end

