-- ==== Sys2Proof/Certificates/Slice0/Obligations.lean ====
section
/-! DEFINITION. The statements for the provers, rule by rule. `P` ranges over the parameter values of R5, R7 and R9;
`exec` and `step` are those of `hardware`. -/

open Sys2Proof Sys2Proof.Machine

/-! ## Numbers, decoding, encoding -/

/-- The two divisions of R12: the floored quotient is the largest that fits below, its remainder lies in `[0, m)`; the
truncated remainder is smaller than `m` and has the sign of the dividend. R12 is the spec's own decision (D4). -/
def Obligations.DivisionFloorsOrTruncates : Prop :=
  ∀ a m : Int, 0 < m →
    fdiv a m * m ≤ a ∧ (∀ q : Int, q * m ≤ a → q ≤ fdiv a m) ∧
    fmod a m = a - m * fdiv a m ∧ 0 ≤ fmod a m ∧ fmod a m < m ∧
    tmod a m = a - m * tdiv a m ∧ -m < tmod a m ∧ tmod a m < m ∧
    (0 ≤ a → 0 ≤ tmod a m) ∧ (a ≤ 0 → tmod a m ≤ 0)

/-- R91, R92 under `DECODE_MOD = floored` (the spec's decision D4): the four fields are decimal digits of the cell, with
the weights of R91. -/
def Obligations.FieldsAreTheDecimalDigits : Prop :=
  ∀ (P : Params) (cell : Int), P.decodeMod = .floored →
    0 ≤ opcodeField P cell ∧ opcodeField P cell ≤ 99 ∧
    (∀ k : Nat, 0 ≤ modeField P k cell ∧ modeField P k cell ≤ 9) ∧
    cell = opcodeField P cell + 100 * modeField P 1 cell + 1000 * modeField P 2 cell + 10000 * modeField P 3 cell
      + 100000 * fdiv cell 100000

/-- Decode and encode agree: the cells of every instruction, whatever follows them, decode to that instruction, for all
parameter values and every operand at every value. -/
def Obligations.EncodedInstructionDecodesBack : Prop :=
  ∀ (P : Params) (i : Instr) (rest : List Int), decodeWords P (encode i ++ rest) = .ok i

/-- With `UNUSED_MODE_DIGITS = fault` (R9) the decoder accepts only the canonical cells of R111: what it decodes, the
encoder gives back, cell for cell. -/
def Obligations.StrictDecoderAcceptsOnlyCanonicalCells : Prop :=
  ∀ (P : Params) (cell p1 p2 p3 : Int) (i : Instr), P.unusedDigits = .fault →
    decode P cell p1 p2 p3 = .ok i → encode i = cell :: [p1, p2, p3].take i.rawParams.length

/-- R103, R104 (the spec's decision D6, which this hardware takes): mode digits of parameters an instruction does not
have, and all higher digits, do not matter. -/
def Obligations.UnusedDigitsDoNotMatter : Prop :=
  ∀ (cell p1 p2 p3 j : Int) (i : Instr),
    decode hardware cell p1 p2 p3 = .ok i →
      decode hardware (cell + 100 * 10 ^ i.rawParams.length * j) p1 p2 p3 = .ok i

/-- R105, the spec's decision D4: under `DECODE_MOD = truncated` no negative cell is an instruction. -/
def Obligations.TruncatedDecoderRejectsNegativeCells : Prop :=
  ∀ (P : Params) (cell p1 p2 p3 : Int), P.decodeMod = .truncated → cell < 0 →
    decode P cell p1 p2 p3 = .error (.unknownOpcode cell)

/-- Cells the spec writes out (V-D2 to V-D15, V-D23, V-D24, V-D36, V-D37) decode to what it says. -/
def Obligations.ListedCellsDecode : Prop :=
  decode hardware 21101 20 22 1 = .ok (.add (.immediate 20) (.immediate 22) (.relative 1)) ∧
  decode hardware 1002 4 3 4 = .ok (.mul (.position 4) (.immediate 3) (.position 4)) ∧
  decode hardware 203 5 0 0 = .ok (.inp (.relative 5)) ∧
  decode hardware 104 (-5) 0 0 = .ok (.out (.immediate (-5))) ∧
  decode hardware 1005 11 0 0 = .ok (.jnz (.position 11) (.immediate 0)) ∧
  decode hardware 1006 7 0 0 = .ok (.jz (.position 7) (.immediate 0)) ∧
  decode hardware 1107 1 2 5 = .ok (.lt (.immediate 1) (.immediate 2) (.position 5)) ∧
  decode hardware 108 2 7 5 = .ok (.eq (.immediate 2) (.position 7) (.position 5)) ∧
  decode hardware 109 100 0 0 = .ok (.arb (.immediate 100)) ∧
  decode hardware (-1) 0 0 0 = .ok .hlt ∧
  decode hardware 313 0 0 0 = .error (.unknownOpcode 313) ∧
  decode hardware 10001 (-1) 0 0 = .error (.invalidAddressingMode 10001) ∧
  decode hardware (-99) 0 0 0 = .error (.invalidAddressingMode (-99))

/-- R107, R108 (notation, the spec's decision D16): a listing of one instruction assembles to its encoding. -/
def Obligations.AssembledInstructionIsItsEncoding : Prop :=
  ∀ i : Instr, assemble [asmOf i] = some (encode i)

/-! ## The step -/

/-- R122: an illegal `PC` faults the step that fetches, with `PC` unchanged; a legal one gives the cell there; a `PC` that
is a value is illegal only by being negative; only a taken jump makes it so. The third clause, a cell of 0 raises
`UnknownOpcode(0)`, is the spec's own inference ("the fetch returns 0, which decodes to opcode 0"). -/
def Obligations.FetchChecksTheProgramCounter : Prop :=
  ∀ (P : Params) (s : State), running s = true →
    (legalAddr P s.pc = false →
      stepCommand P s = ({ s with fault := some (.invalidAddress s.pc) }, .faulted (.invalidAddress s.pc))) ∧
    (legalAddr P s.pc = true → fetchCell P s = .ok (Mem.read s.mem s.pc.toNat)) ∧
    (legalAddr P s.pc = true → Mem.read s.mem s.pc.toNat = 0 →
      stepCommand P s = ({ s with fault := some (.unknownOpcode 0) }, .faulted (.unknownOpcode 0))) ∧
    (inVal P s.pc = true → legalAddr P s.pc = false → s.pc < 0) ∧
    (legalAddr P s.pc = true → (stepCommand P s).1.pc < 0 →
      ∃ a g, (fetchInstr P s = .ok (.jnz a g) ∧ inValue s a ≠ 0) ∨
        (fetchInstr P s = .ok (.jz a g) ∧ inValue s a = 0))

/-- R101: a cell whose opcode is none of the ten raises `UnknownOpcode`; it is no no-op. 5000 decodes to opcode 0. -/
def Obligations.UndefinedOpcodeFaults : Prop :=
  (∀ (P : Params) (s : State), running s = true → legalAddr P s.pc = true →
    opcodeField P (cellAtPc s) ∉ [1, 2, 3, 4, 5, 6, 7, 8, 9, 99] →
      stepCommand P s =
        ({ s with fault := some (.unknownOpcode (cellAtPc s)) }, .faulted (.unknownOpcode (cellAtPc s)))) ∧
  opcodeField hardware 5000 = 0

/-- R102: for a parameter the opcode has (the `k`-th from 0, of role `r`), a mode digit outside 0, 1, 2 for an IN, or
outside 0, 2 for an OUT, raises `InvalidAddressingMode`, whatever the parameters are. -/
def Obligations.IllegalModeDigitFaults : Prop :=
  ∀ (P : Params) (s : State) (op : Opcode) (k : Nat) (r : Role), running s = true → legalAddr P s.pc = true →
    opcodeField P (cellAtPc s) = opcodeNumber op → (opcodeShape op)[k]? = some r →
    (modeField P (k + 1) (cellAtPc s) ≠ 0 ∧ modeField P (k + 1) (cellAtPc s) ≠ 2 ∧
      (r = .input → modeField P (k + 1) (cellAtPc s) ≠ 1)) →
    stepCommand P s = ({ s with fault := some (.invalidAddressingMode (cellAtPc s)) },
      .faulted (.invalidAddressingMode (cellAtPc s)))

/-- A step runs the decoded instruction: where the cells at a legal `PC` of a running state decode to an instruction,
the step is `exec` of it and nothing more; where they do not, only the fault is recorded; a halted or faulted state
stays. That it stays is the spec's decisions D11 and D12, and that it and a fault are next states is log 3. -/
def Obligations.StepRunsTheDecodedInstruction : Prop :=
  ∀ s : State,
    (∀ i, running s = true → 0 ≤ s.pc → decodeAtPc hardware s = .ok i → step s = exec i s) ∧
    (∀ r, running s = true → 0 ≤ s.pc → decodeAtPc hardware s = .error r →
      step s = .next { s with fault := some (rejectFault r) }) ∧
    (running s = false → step s = .next s)

/-- The host's step is the command `step` of R200 on this hardware, and it always answers a next state. -/
def Obligations.StepAlwaysAnswersTheCommandsState : Prop :=
  ∀ s : State, step s = .next (stepCommand hardware s).1

/-- The step, for all parameter values R5 allows and all states, is the pseudocode of R120 as `refStep` transcribes it:
the same state and the same result. -/
def Obligations.StepRefinesThePseudocode : Prop :=
  ∀ (P : Params) (s : State), P.legal = true → stepCommand P s = refStep P s

/-- R203: a running state steps or faults, and the step is then a commit or a fault and nothing else. -/
def Obligations.RunningStateStepsOrFaults : Prop :=
  ∀ (P : Params) (s : State), running s = true →
    (∃ e, transition P s = .ok e ∧ stepCommand P s = (commit e s, .stepped)) ∨
    (∃ f, transition P s = .error f ∧ stepCommand P s = ({ s with fault := some f }, .faulted f))

/-- R127, R128, R129: the three forms of an IN operand, each with its check. The fourth and fifth clauses give the two
forms of an OUT operand (R130). -/
def Obligations.OperandsResolveByTheirMode : Prop :=
  ∀ (P : Params) (s : State) (p : Int),
    resolveIn P s (.position p) =
      (if legalAddr P p then .ok (Mem.read s.mem p.toNat) else .error (.invalidAddress p)) ∧
    resolveIn P s (.relative p) =
      (if legalAddr P (p + s.rb) then .ok (Mem.read s.mem (p + s.rb).toNat)
        else .error (.invalidAddress (p + s.rb))) ∧
    resolveIn P s (.immediate p) = .ok p ∧
    resolveOut P s (.position p) = (if legalAddr P p then .ok p.toNat else .error (.invalidAddress p)) ∧
    resolveOut P s (.relative p) =
      (if legalAddr P (p + s.rb) then .ok (p + s.rb).toNat else .error (.invalidAddress (p + s.rb)))

/-- R134: a completed step advances by the length of the opcode decoded at its start, whatever it overwrites (the latter
is the spec's inference from R121). -/
def Obligations.CompletedStepAdvancesByItsLength : Prop :=
  ∀ (P : Params) (s t : State) (i : Instr), fetchInstr P s = .ok i → stepCommand P s = (t, .stepped) →
    (i.opcode ∈ [Opcode.add, .mul, .lt, .eq] → t.pc = s.pc + 4) ∧
    (i.opcode ∈ [Opcode.inp, .out, .arb] → t.pc = s.pc + 2)

/-- R135: what the opcodes that manage `PC` themselves do to it. The last clause is the sentence on a program of one
99. -/
def Obligations.JumpsAndHltManageThePc : Prop :=
  (∀ (P : Params) (s t : State) (i : Instr), fetchInstr P s = .ok i → stepCommand P s = (t, .stepped) →
    (∀ a g, i = .jnz a g → t.pc = if inValue s a ≠ 0 then inValue s g else s.pc + 3) ∧
    (∀ a g, i = .jz a g → t.pc = if inValue s a = 0 then inValue s g else s.pc + 3) ∧
    (i = .hlt → t.pc = s.pc)) ∧
  run hardware 1 (constructed [99] none) = ({ constructed [99] none with halted := true }, some .halted)

/-! ## The ten instructions complete -/

/-- R150: `ADD` completes when its operands resolve: the exact sum to its target, `PC + 4`, nothing else. -/
def Obligations.AddWritesTheExactSum : Prop :=
  ∀ (s : State) (a b : InOperand) (d : OutOperand), 0 ≤ s.pc →
    inLegal hardware s a = true → inLegal hardware s b = true → outLegal hardware s d = true →
    exec (.add a b d) s =
      .next { s with mem := Mem.write s.mem (outAddr s d).toNat (inValue s a + inValue s b), pc := s.pc + 4 }

/-- R151: `MUL` completes when its operands resolve: the exact product to its target, `PC + 4`, nothing else. -/
def Obligations.MulWritesTheExactProduct : Prop :=
  ∀ (s : State) (a b : InOperand) (d : OutOperand), 0 ≤ s.pc →
    inLegal hardware s a = true → inLegal hardware s b = true → outLegal hardware s d = true →
    exec (.mul a b d) s =
      .next { s with mem := Mem.write s.mem (outAddr s d).toNat (inValue s a * inValue s b), pc := s.pc + 4 }

/-- R180, R182: `LT` completes when its operands resolve: 1 or 0 to its target by the signed comparison. -/
def Obligations.LtWritesOneOrZero : Prop :=
  ∀ (s : State) (a b : InOperand) (d : OutOperand), 0 ≤ s.pc →
    inLegal hardware s a = true → inLegal hardware s b = true → outLegal hardware s d = true →
    exec (.lt a b d) s =
      .next { s with
        mem := Mem.write s.mem (outAddr s d).toNat (if inValue s a < inValue s b then 1 else 0), pc := s.pc + 4 }

/-- R181, R182: `EQ` completes when its operands resolve: 1 or 0 to its target by equality. -/
def Obligations.EqWritesOneOrZero : Prop :=
  ∀ (s : State) (a b : InOperand) (d : OutOperand), 0 ≤ s.pc →
    inLegal hardware s a = true → inLegal hardware s b = true → outLegal hardware s d = true →
    exec (.eq a b d) s =
      .next { s with
        mem := Mem.write s.mem (outAddr s d).toNat (if inValue s a = inValue s b then 1 else 0), pc := s.pc + 4 }

/-- R160, R161: `IN` completes when its target is legal and an input is pending: that value to the target, `PC + 2`, and
the input stays. -/
def Obligations.InStoresThePendingInput : Prop :=
  ∀ (s : State) (d : OutOperand) (v : Int), 0 ≤ s.pc → outLegal hardware s d = true → s.inr = some v →
    exec (.inp d) s = .next { s with mem := Mem.write s.mem (outAddr s d).toNat v, pc := s.pc + 2 }

/-- R162: `OUT` completes when its operand resolves: one element at the end of `OUTQ`, `PC + 2`, nothing else. -/
def Obligations.OutAppendsOneElement : Prop :=
  ∀ (s : State) (a : InOperand), 0 ≤ s.pc → inLegal hardware s a = true →
    exec (.out a) s = .next { s with outq := s.outq ++ [inValue s a], pc := s.pc + 2 }

/-- R171, R172: `JNZ` completes when both its operands resolve, with any target value at all. -/
def Obligations.JnzChoosesTheNextPc : Prop :=
  ∀ (s : State) (a g : InOperand), 0 ≤ s.pc → inLegal hardware s a = true → inLegal hardware s g = true →
    exec (.jnz a g) s = .next { s with pc := if inValue s a ≠ 0 then inValue s g else s.pc + 3 }

/-- R173, R172: `JZ` completes when both its operands resolve, with any target value at all. -/
def Obligations.JzChoosesTheNextPc : Prop :=
  ∀ (s : State) (a g : InOperand), 0 ≤ s.pc → inLegal hardware s a = true → inLegal hardware s g = true →
    exec (.jz a g) s = .next { s with pc := if inValue s a = 0 then inValue s g else s.pc + 3 }

/-- R190: `ARB` completes when its operand resolves, with the old `RB`: the sum to `RB`, `PC + 2`, nothing else. -/
def Obligations.ArbAddsToTheRelativeBase : Prop :=
  ∀ (s : State) (a : InOperand), 0 ≤ s.pc → inLegal hardware s a = true →
    exec (.arb a) s = .next { s with rb := s.rb + inValue s a, pc := s.pc + 2 }

/-- R195: `HLT` sets `HALTED` and nothing else, in every state; its unused mode digits are ignored, so every cell with
opcode 99 is a `HLT`, 1099, 20099 and -1 among them; its step faults only at the fetch. -/
def Obligations.HltSetsHaltedAlone : Prop :=
  (∀ s : State, exec .hlt s = .next { s with halted := true }) ∧
  (∀ (P : Params) (cell p1 p2 p3 : Int), P.unusedDigits = .ignore → opcodeField P cell = 99 →
    decode P cell p1 p2 p3 = .ok .hlt) ∧
  (∀ P : Params, opcodeField P 1099 = 99 ∧ opcodeField P 20099 = 99) ∧
  (∀ P : Params, P.decodeMod = .floored → opcodeField P (-1) = 99) ∧
  (∀ (P : Params) (s : State), running s = true → P.unusedDigits = .ignore →
    opcodeField P (cellAtPc s) = 99 →
    stepCommand P s =
      if legalAddr P s.pc then ({ s with halted := true }, .stepped)
      else ({ s with fault := some (.invalidAddress s.pc) }, .faulted (.invalidAddress s.pc)))

/-! ## Where they fault -/

/-- `ADD`, `MUL`, `LT`, `EQ`: of several illegal addresses the first in parameter order is reported, and nothing but
`FAULT` changes (R131, R229; the order is the spec's decision D18). -/
def Obligations.ThreeParametersReportTheFirstIllegalAddress : Prop :=
  ∀ (s : State) (a b : InOperand) (d : OutOperand) (i : Instr), 0 ≤ s.pc →
    i ∈ [Instr.add a b d, .mul a b d, .lt a b d, .eq a b d] →
    (∀ x, inAddr s a = some x → x < 0 → exec i s = .next { s with fault := some (.invalidAddress x) }) ∧
    (∀ x, inLegal hardware s a = true → inAddr s b = some x → x < 0 →
      exec i s = .next { s with fault := some (.invalidAddress x) }) ∧
    (inLegal hardware s a = true → inLegal hardware s b = true → outAddr s d < 0 →
      exec i s = .next { s with fault := some (.invalidAddress (outAddr s d)) })

/-- `JNZ`, `JZ`: both operands are resolved whether or not the jump is taken (R171 derives this from R120), and the first
is reported before the second (the spec's decision D18). -/
def Obligations.JumpsReportAnIllegalAddressTakenOrNot : Prop :=
  ∀ (s : State) (a g : InOperand) (i : Instr), 0 ≤ s.pc → i ∈ [Instr.jnz a g, .jz a g] →
    (∀ x, inAddr s a = some x → x < 0 → exec i s = .next { s with fault := some (.invalidAddress x) }) ∧
    (∀ x, inLegal hardware s a = true → inAddr s g = some x → x < 0 →
      exec i s = .next { s with fault := some (.invalidAddress x) })

/-- `OUT`, `ARB`: an illegal operand address faults, and nothing is appended or added (R162, R190, R229). -/
def Obligations.OneInputReportsItsIllegalAddress : Prop :=
  ∀ (s : State) (a : InOperand) (i : Instr) (x : Int), 0 ≤ s.pc → i ∈ [Instr.out a, .arb a] →
    inAddr s a = some x → x < 0 → exec i s = .next { s with fault := some (.invalidAddress x) }

/-- `IN`: an illegal target faults whether or not an input is pending; with a legal one and no input it is `InputUnset`
with the instruction cell (R160, R224; `InputUnset` is the spec's decision D5). -/
def Obligations.InFaultsOnTargetBeforeInput : Prop :=
  ∀ (s : State) (d : OutOperand), 0 ≤ s.pc →
    (outAddr s d < 0 → exec (.inp d) s = .next { s with fault := some (.invalidAddress (outAddr s d)) }) ∧
    (0 ≤ outAddr s d → s.inr = none →
      exec (.inp d) s = .next { s with fault := some (.inputUnset (Mem.read s.mem s.pc.toNat)) })

/-- R152, R225 (the spec's decision D2): on a machine of any width, a sum, a product or a relative base outside `VAL`
raises `ValueOverflow` with the instruction cell; nothing wraps. -/
def Obligations.ResultOutsideValOverflows : Prop :=
  ∀ (P : Params) (s : State) (a b : InOperand) (d : OutOperand),
    (paramsLegal P s 3 = true → inLegal P s a = true → inLegal P s b = true → outLegal P s d = true →
      (inVal P (inValue s a + inValue s b) = false →
        effectOf P (.add a b d) s = .error (.valueOverflow (cellAtPc s))) ∧
      (inVal P (inValue s a * inValue s b) = false →
        effectOf P (.mul a b d) s = .error (.valueOverflow (cellAtPc s)))) ∧
    (paramsLegal P s 1 = true → inLegal P s a = true → inVal P (s.rb + inValue s a) = false →
      effectOf P (.arb a) s = .error (.valueOverflow (cellAtPc s)))

/-- R136 (the spec's decision D2): where `PC + 1 + n` is outside `VAL`, no instruction but `HLT` and a taken jump
completes. -/
def Obligations.NoFallThroughPastTheLastValue : Prop :=
  ∀ (P : Params) (s : State) (i : Instr) (e : Effect),
    inVal P (s.pc + opcodeLength i.opcode) = false → effectOf P i s = .ok e →
    (i = .hlt ∧ e.nextPc = s.pc) ∨
    (∃ a g, i = .jnz a g ∧ inValue s a ≠ 0 ∧ e.nextPc = inValue s g) ∨
    (∃ a g, i = .jz a g ∧ inValue s a = 0 ∧ e.nextPc = inValue s g)

/-- R225: with `CELL_BITS = INF`, as on this hardware, `ValueOverflow` cannot occur. -/
def Obligations.UnboundedValuesNeverOverflow : Prop :=
  ∀ (s : State) (info : Int), transition hardware s ≠ .error (.valueOverflow info)

/-! ## Frames -/

/-- The storing instructions: whenever `exec` answers, completed or faulted, `RB`, `INR`, `OUTQ` and `HALTED` are as
before, `FAULT` too unless it was only taken, and every cell but the target reads as before. -/
def Obligations.StoringInstructionsFrame : Prop :=
  ∀ (s t : State) (a b : InOperand) (d : OutOperand) (i : Instr),
    i ∈ [Instr.add a b d, .mul a b d, .lt a b d, .eq a b d, .inp d] → exec i s = .next t →
    t.rb = s.rb ∧ t.inr = s.inr ∧ t.outq = s.outq ∧ t.halted = s.halted ∧
    (t.fault = s.fault ∨ ∃ f, t = { s with fault := some f }) ∧
    ∀ x : Nat, (x : Int) ≠ outAddr s d → Mem.read t.mem x = Mem.read s.mem x

/-- The others store nothing: every cell reads as before, `INR` is as before, `RB` unless `ARB`, `OUTQ` unless `OUT`,
`HALTED` unless `HLT`, `FAULT` unless it was only taken. -/
def Obligations.NonStoringInstructionsFrame : Prop :=
  ∀ (s t : State) (a g : InOperand) (i : Instr),
    i ∈ [Instr.out a, .jnz a g, .jz a g, .arb a, .hlt] → exec i s = .next t →
    (∀ x : Nat, Mem.read t.mem x = Mem.read s.mem x) ∧ t.inr = s.inr ∧
    (i ≠ .arb a → t.rb = s.rb) ∧ (i ≠ .out a → t.outq = s.outq) ∧ (i ≠ .hlt → t.halted = s.halted) ∧
    (t.fault = s.fault ∨ ∃ f, t = { s with fault := some f })

/-! ## Memory -/

/-- R60, R61: memory is the function it reads as: two memories in canonical form that read alike everywhere are equal
data (the canonical form is the model's, log 4). -/
def Obligations.MemoriesThatReadAlikeAreEqual : Prop :=
  ∀ m n : Mem, Mem.wf m = true → Mem.wf n = true → (∀ a, Mem.read m a = Mem.read n a) → m = n

/-- R64: a write changes its cell to the value and no other; the machine writes only legal addresses and values. -/
def Obligations.WriteChangesItsCellAlone : Prop :=
  (∀ (m : Mem) (a : Nat) (v : Int), Mem.wf m = true →
    Mem.read (Mem.write m a v) a = v ∧ ∀ b : Nat, b ≠ a → Mem.read (Mem.write m a v) b = Mem.read m b) ∧
  (∀ (P : Params) (s : State) (e : Effect) (a : Nat) (v : Int), P.legal = true → State.Inv P s →
    transition P s = .ok e → e.write = some (a, v) → legalAddr P a = true ∧ inVal P v = true)

/-- R192: what an instruction writes through a relative OUT parameter, a relative IN parameter at the same effective
address reads back, whatever `ARB` did between. -/
def Obligations.RelativeWriteReadRoundTrip : Prop :=
  ∀ (s : State) (a b : InOperand) (p : Int) (i : Instr) (e : Effect), Mem.wf s.mem = true →
    i ∈ [Instr.add a b (.relative p), .mul a b (.relative p), .lt a b (.relative p), .eq a b (.relative p),
      .inp (.relative p)] →
    effectOf hardware i s = .ok e →
    ∃ v, e.write = some ((p + s.rb).toNat, v) ∧
      ∀ q base : Int, q + base = p + s.rb → inValue { commit e s with rb := base } (.relative q) = v

/-- R76: the cell a step writes is what the next fetch from it reads. -/
def Obligations.StoreIsSeenByTheNextFetch : Prop :=
  ∀ (P : Params) (s : State) (e : Effect) (v : Int), Mem.wf s.mem = true → legalAddr P e.nextPc = true →
    e.write = some (e.nextPc.toNat, v) → fetchCell P (commit e s) = .ok v

/-! ## Whole-machine rules -/

/-- The invariant holds at reset, for all parameter values. -/
def Obligations.ResetMeetsTheInvariant : Prop :=
  ∀ P : Params, State.Inv P State.reset

/-- The host's reset is `construct` of the empty image without an input (the model's choice, log 7), and its first step
raises `UnknownOpcode(0)` (R261, the spec's decision D22). -/
def Obligations.ResetIsConstructOfTheEmptyImage : Prop :=
  State.reset = constructed [] none ∧
  step State.reset = .next { State.reset with fault := some (.unknownOpcode 0) } ∧
  ∀ a : Nat, Mem.read State.reset.mem a = 0

/-- Every step of this hardware keeps the invariant. -/
def Obligations.StepKeepsTheInvariant : Prop :=
  ∀ s t : State, State.Inv hardware s → step s = .next t → State.Inv hardware t

/-- Every command of the controller keeps the invariant, for all parameter values R5 allows: on a finite machine no cell
and no register ever leaves `VAL`, and no cell beyond `ADDR_MAX` is written. -/
def Obligations.CommandsKeepTheInvariant : Prop :=
  ∀ (P : Params) (c : Command) (s : State), P.legal = true → State.Inv P s → State.Inv P (command P c s).1

/-- R139: a step never changes `INR`, never removes from `OUTQ` and appends at most one element, never clears `HALTED`
or `FAULT`. -/
def Obligations.StepNeverTakesBack : Prop :=
  ∀ (P : Params) (s : State),
    (stepCommand P s).1.inr = s.inr ∧
    ((stepCommand P s).1.outq = s.outq ∨ ∃ v, (stepCommand P s).1.outq = s.outq ++ [v]) ∧
    (s.halted = true → (stepCommand P s).1.halted = true) ∧
    (∀ f, s.fault = some f → (stepCommand P s).1.fault = some f)

/-- R21, R191: each element has the writers its row names: only `ARB` changes `RB`, only `OUT` `OUTQ`, only `HLT`
`HALTED`, and only `ADD`, `MUL`, `IN`, `LT`, `EQ` memory. -/
def Obligations.EachElementHasItsOwnWriters : Prop :=
  ∀ (P : Params) (s : State),
    ((stepCommand P s).1.rb ≠ s.rb → ∃ i, fetchInstr P s = .ok i ∧ i.opcode = .arb) ∧
    ((stepCommand P s).1.outq ≠ s.outq → ∃ i, fetchInstr P s = .ok i ∧ i.opcode = .out) ∧
    ((stepCommand P s).1.halted ≠ s.halted → ∃ i, fetchInstr P s = .ok i ∧ i.opcode = .hlt) ∧
    ((stepCommand P s).1.mem ≠ s.mem →
      ∃ i, fetchInstr P s = .ok i ∧ i.opcode ∈ [Opcode.add, .mul, .inp, .lt, .eq])

/-- R196: once `HALTED` is true no `step`, `run` or `run_until_output` changes any state; only `construct` makes it
false; the controller cannot set it from outside. -/
def Obligations.HaltedIsTerminal : Prop :=
  ∀ (P : Params) (s : State),
    (s.halted = true → (stepCommand P s).1 = s ∧
      ∀ fuel, (run P fuel s).1 = s ∧ (runUntilOutput P fuel s).1 = s) ∧
    (∀ c, c.constructs = false → s.halted = true → (command P c s).1.halted = true) ∧
    (∀ c, c.executes = false → c.constructs = false → (command P c s).1.halted = s.halted) ∧
    (∀ image input, (constructed image input).halted = false)

/-- R233 (the spec's decision D12): a recorded fault stays; every executing command answers it again and changes
nothing, and an input written later does not revive the machine. -/
def Obligations.FaultIsSticky : Prop :=
  ∀ (P : Params) (s : State) (f : Fault) (v : Int) (fuel : Nat), s.fault = some f →
    stepCommand P s = (s, .faulted f) ∧ run P fuel s = (s, some (.faulted f)) ∧
    runUntilOutput P fuel s = (s, some (.faulted f)) ∧ (command P (.writeInput v) s).1.fault = some f

/-- R229: a step that raises changes `FAULT` alone and returns `Faulted`; a `run` or `run_until_output` in progress
returns the same, and there is no retry. -/
def Obligations.RaiseChangesFaultAlone : Prop :=
  ∀ (P : Params) (s : State) (f : Fault), running s = true → transition P s = .error f →
    stepCommand P s = ({ s with fault := some f }, .faulted f) ∧
    (∀ fuel, run P (fuel + 1) s = ({ s with fault := some f }, some (.faulted f))) ∧
    (∀ fuel, runUntilOutput P (fuel + 1) s = ({ s with fault := some f }, some (.faulted f)))

/-! ## Run control -/

/-- R204, R206: what `run_until_output` returns as an output is the one new element of `OUTQ`; a fault it returns is the
recorded one, and then `OUTQ` is as it was. -/
def Obligations.RunUntilOutputReturnsTheNewElement : Prop :=
  ∀ (P : Params) (s t : State),
    (∀ v, OutputReturns P s t (.output v) → t.outq = s.outq ++ [v] ∧ t.fault = none) ∧
    (∀ f, OutputReturns P s t (.faulted f) → t.outq = s.outq ∧ t.fault = some f)

/-- R205: a halt without a new value is answered `HaltedNoOutput` and by nothing else, so no old output is returned; that
answer is given only there; a machine already halted gives it at once. -/
def Obligations.HaltWithoutOutputIsDistinct : Prop :=
  ∀ (P : Params) (s : State),
    (∀ t r, OutputReturns P s t r → t.halted = true → t.fault = none → t.outq = s.outq → r = .haltedNoOutput) ∧
    (∀ t, OutputReturns P s t .haltedNoOutput → t.outq = s.outq ∧ State.Final t) ∧
    (s.fault = none → s.halted = true → ∀ fuel, runUntilOutput P fuel s = (s, some .haltedNoOutput)) ∧
    (∀ v, OutputResult.haltedNoOutput ≠ .output v)

/-- R201: `run` returns `Halted` only at the good end, `Faulted` only with the recorded fault. That `INR` is the same
after it rests on the controller having no move during a `run` (log 10; the spec's decision D8, R209). -/
def Obligations.RunReturnsOnlyAtAnEnd : Prop :=
  ∀ (P : Params) (s t : State) (r : RunResult), RunReturns P s t r →
    t.inr = s.inr ∧ (r = .halted → State.Final t) ∧ (∀ f, r = .faulted f → t.fault = some f)

/-- R138 for `run`: however much fuel it takes, it returns one result in one state. -/
def Obligations.RunHasOneResult : Prop :=
  ∀ (P : Params) (s t u : State) (r q : RunResult), RunReturns P s t r → RunReturns P s u q → t = u ∧ r = q

/-- R207 (derived in the spec): `run` ends where repeated `run_until_output` ends, and the values those return, in order,
are exactly what was appended to `OUTQ`. -/
def Obligations.RunIsRepeatedRunUntilOutput : Prop :=
  ∀ (P : Params) (s t : State) (r : RunResult),
    RunReturns P s t r ↔ ∃ vs, OutputSession P vs s t (asOutputResult r) ∧ t.outq = s.outq ++ vs

/-! ## Ports -/

/-- What R260 says `construct` sets, all seven elements. The image's place, the empty `OUTQ` and the false `HALTED` are
the spec's inferences (R71, R26, R27), and `FAULT` is its own element (decision D7). -/
def Obligations.ConstructSetsEveryElement : Prop :=
  ∀ (image : List Int) (input : Option Int),
    (∀ k : Nat, k < image.length → some (Mem.read (constructed image input).mem k) = image[k]?) ∧
    (∀ k : Nat, image.length ≤ k → Mem.read (constructed image input).mem k = 0) ∧
    (constructed image input).pc = 0 ∧ (constructed image input).rb = 0 ∧
    (constructed image input).inr = input ∧ (constructed image input).outq = [] ∧
    (constructed image input).halted = false ∧ (constructed image input).fault = none

/-- R261, R264 (the spec's decisions D22, D23): with legal arguments `construct` happens in every state; otherwise it
is refused and the state stands. -/
def Obligations.ConstructHappensOrIsRefused : Prop :=
  ∀ (P : Params) (image : List Int) (input : Option Int) (s : State),
    ((∀ v ∈ image ++ input.toList, inVal P v = true) → imageFits P image = true →
      command P (.construct image input) s = (constructed image input, .done)) ∧
    (((∃ v ∈ image ++ input.toList, inVal P v = false) ∨ imageFits P image = false) →
      ∃ r, command P (.construct image input) s = (s, .refused r))

/-- R208 (the refusal is the spec's decision D15): `write_input` sets `INR` alone, in every state. -/
def Obligations.WriteInputSetsInrAlone : Prop :=
  ∀ (P : Params) (v : Int) (s : State),
    (inVal P v = true → command P (.writeInput v) s = ({ s with inr := some v }, .done)) ∧
    (inVal P v = false → command P (.writeInput v) s = (s, .refused (.inputOutsideVal v)))

/-- R34, R44, R210: apart from `construct` and the executing commands the controller changes at most `INR`, and the
views show what the state holds. -/
def Obligations.ControllerReadsWithoutChanging : Prop :=
  ∀ (P : Params) (s : State),
    (∀ c, c.executes = false → c.constructs = false → ∃ v, (command P c s).1 = { s with inr := v }) ∧
    command P .outputs s = (s, .values s.outq) ∧ command P .halted s = (s, .flag s.halted) ∧
    command P .fault s = (s, .faultView s.fault) ∧ command P .pc s = (s, .value s.pc) ∧
    command P .rb s = (s, .value s.rb) ∧
    (∀ a, legalAddr P a = true → command P (.peek a) s = (s, .value (Mem.read s.mem a.toNat)))

/-- R209, R202: a loop that used up its fuel is in progress: it has not faulted or halted, `INR` is what it was when the
loop was called, and no later command is performed; a command that returned is followed by the next one in the state it
left. That the controller has no move is the spec's decision D8 (log 10), the fuel the model's (log 9). -/
def Obligations.ControllerHasNoMoveInsideALoop : Prop :=
  ∀ (P : Params) (s t : State) (cs : List Command),
    (∀ fuel, run P fuel s = (t, none) →
      running t = true ∧ t.inr = s.inr ∧ commands P (.run fuel :: cs) s = (t, [.runReturned none])) ∧
    (∀ fuel, runUntilOutput P fuel s = (t, none) →
      running t = true ∧ t.inr = s.inr ∧ t.outq = s.outq ∧
        commands P (.runUntilOutput fuel :: cs) s = (t, [.outputReturned none])) ∧
    (∀ c r, command P c s = (t, r) → r.returned = true →
      commands P (c :: cs) s = ((commands P cs t).1, r :: (commands P cs t).2))
end

