-- ==== Sys2Proof/Laws/Decode.lean ====
section
/-! SUPPORT. The decoder's parts: when each answers, and the digits of a canonical cell. -/

namespace Sys2Proof

theorem inOperand_ok {cell mode raw : Int} {o : InOperand} :
    inOperand cell mode raw = .ok o ↔ mode = inModeDigit o ∧ raw = o.raw := by
  unfold inOperand
  cases o <;> (split_ifs <;> simp_all [inModeDigit, InOperand.raw, eq_comm])

theorem outOperand_ok {cell mode raw : Int} {o : OutOperand} :
    outOperand cell mode raw = .ok o ↔ mode = outModeDigit o ∧ raw = o.raw := by
  unfold outOperand
  cases o <;> (split_ifs <;> simp_all [outModeDigit, OutOperand.raw, eq_comm])

theorem inOperand_error {cell mode raw : Int} {r : Reject} :
    inOperand cell mode raw = .error r ↔
      (mode ≠ 0 ∧ mode ≠ 1 ∧ mode ≠ 2) ∧ r = .invalidAddressingMode cell := by
  unfold inOperand
  split_ifs <;> simp_all [eq_comm]

theorem outOperand_error {cell mode raw : Int} {r : Reject} :
    outOperand cell mode raw = .error r ↔ (mode ≠ 0 ∧ mode ≠ 2) ∧ r = .invalidAddressingMode cell := by
  unfold outOperand
  split_ifs <;> simp_all [eq_comm]

/-- The lookup finds an opcode exactly by its number. -/
theorem lookup_eq_some {number : Int} {op : Opcode} : lookup number = some op ↔ number = opcodeNumber op := by
  constructor
  · intro h
    unfold lookup at h
    repeat
      split at h
      · cases h; assumption
    cases h
  · rintro rfl
    cases op <;> rfl

@[simp] theorem lookup_opcodeNumber (op : Opcode) : lookup (opcodeNumber op) = some op :=
  lookup_eq_some.mpr rfl

theorem inModeDigit_range (o : InOperand) : 0 ≤ inModeDigit o ∧ inModeDigit o ≤ 2 := by
  cases o <;> simp [inModeDigit]

theorem outModeDigit_range (o : OutOperand) : 0 ≤ outModeDigit o ∧ outModeDigit o ≤ 2 := by
  cases o <;> simp [outModeDigit]

theorem opcodeNumber_range (op : Opcode) : 1 ≤ opcodeNumber op ∧ opcodeNumber op ≤ 99 := by
  cases op <;> simp [opcodeNumber]

end Sys2Proof
end

