-- ==== Sys2Proof/Laws/Memory.lean ====
section
/-! SUPPORT. The memory: a read after a write, and every operation keeps the canonical form. -/

namespace Sys2Proof.Machine

@[simp] theorem read_nil (a : Nat) : Mem.read [] a = 0 := rfl

/-- Below a list in canonical form nothing is listed. -/
theorem read_of_le {lo : Nat} {m : Mem} (h : Mem.wfAbove lo m = true) {a : Nat} (ha : a ≤ lo) :
    Mem.read m a = 0 := by
  induction m generalizing lo with
  | nil => rfl
  | cons c rest ih =>
    obtain ⟨b, w⟩ := c
    simp only [Mem.wfAbove, Bool.and_eq_true, decide_eq_true_eq] at h
    rw [Mem.read, if_neg (by omega)]
    exact ih h.2 (by omega)

/-- A lower bound may be lowered. -/
theorem wfAbove_mono {lo lo' : Nat} {m : Mem} (h : Mem.wfAbove lo m = true) (hl : lo' ≤ lo) :
    Mem.wfAbove lo' m = true := by
  cases m with
  | nil => rfl
  | cons c rest =>
    obtain ⟨b, w⟩ := c
    simp only [Mem.wfAbove, Bool.and_eq_true, decide_eq_true_eq] at h ⊢
    exact ⟨⟨by omega, h.1.2⟩, h.2⟩

theorem wf_of_wfAbove {lo : Nat} {m : Mem} (h : Mem.wfAbove lo m = true) : Mem.wf m = true := by
  cases m with
  | nil => rfl
  | cons c rest =>
    obtain ⟨b, w⟩ := c
    simp only [Mem.wfAbove, Mem.wf, Bool.and_eq_true, decide_eq_true_eq] at h ⊢
    exact ⟨h.1.2, h.2⟩

theorem read_put_same (m : Mem) (a : Nat) (v : Int) : Mem.read (Mem.put m a v) a = v := by
  induction m with
  | nil => simp [Mem.put, Mem.read]
  | cons c rest ih =>
    obtain ⟨b, w⟩ := c
    rw [Mem.put]
    split
    · simp [Mem.read]
    · split
      · simp [Mem.read]
      · simp [Mem.read, *]

theorem read_put_other (m : Mem) {a b : Nat} (v : Int) (h : b ≠ a) :
    Mem.read (Mem.put m a v) b = Mem.read m b := by
  induction m with
  | nil => simp [Mem.put, Mem.read, h]
  | cons c rest ih =>
    obtain ⟨d, w⟩ := c
    rw [Mem.put]
    split
    · simp [Mem.read, h]
    · split
      · subst a; simp [Mem.read, h]
      · simp [Mem.read, ih]

theorem read_drop_other (m : Mem) {a b : Nat} (h : b ≠ a) : Mem.read (Mem.drop m a) b = Mem.read m b := by
  induction m with
  | nil => rfl
  | cons c rest ih =>
    obtain ⟨d, w⟩ := c
    rw [Mem.drop]
    split
    · subst a; simp [Mem.read, h]
    · simp [Mem.read, ih]

theorem read_drop_same_of_wfAbove {lo : Nat} {m : Mem} (h : Mem.wfAbove lo m = true) (a : Nat) :
    Mem.read (Mem.drop m a) a = 0 := by
  induction m generalizing lo with
  | nil => rfl
  | cons c rest ih =>
    obtain ⟨d, w⟩ := c
    simp only [Mem.wfAbove, Bool.and_eq_true, decide_eq_true_eq] at h
    rw [Mem.drop]
    split
    · exact read_of_le h.2 (by omega)
    · rw [Mem.read, if_neg ‹_›]; exact ih h.2

theorem read_drop_same {m : Mem} (h : Mem.wf m = true) (a : Nat) : Mem.read (Mem.drop m a) a = 0 := by
  cases m with
  | nil => rfl
  | cons c rest =>
    obtain ⟨d, w⟩ := c
    simp only [Mem.wf, Bool.and_eq_true, decide_eq_true_eq] at h
    rw [Mem.drop]
    split
    · exact read_of_le h.2 (by omega)
    · rw [Mem.read, if_neg ‹_›]; exact read_drop_same_of_wfAbove h.2 a

/-- Reading the address written gives the value written. -/
theorem read_write_same {m : Mem} (h : Mem.wf m = true) (a : Nat) (v : Int) :
    Mem.read (Mem.write m a v) a = v := by
  rw [Mem.write]
  split
  · rw [read_drop_same h]; omega
  · exact read_put_same m a v

/-- Reading any other address gives what it gave before. -/
theorem read_write_other (m : Mem) {a b : Nat} (v : Int) (h : b ≠ a) :
    Mem.read (Mem.write m a v) b = Mem.read m b := by
  rw [Mem.write]
  split
  · exact read_drop_other m h
  · exact read_put_other m v h

theorem wfAbove_drop {lo : Nat} {m : Mem} (h : Mem.wfAbove lo m = true) (a : Nat) :
    Mem.wfAbove lo (Mem.drop m a) = true := by
  induction m generalizing lo with
  | nil => rfl
  | cons c rest ih =>
    obtain ⟨b, w⟩ := c
    simp only [Mem.wfAbove, Bool.and_eq_true, decide_eq_true_eq] at h
    rw [Mem.drop]
    split
    · exact wfAbove_mono h.2 (by omega)
    · simp only [Mem.wfAbove, Bool.and_eq_true, decide_eq_true_eq]
      exact ⟨h.1, ih h.2⟩

theorem wfAbove_put {lo : Nat} {m : Mem} (h : Mem.wfAbove lo m = true) {a : Nat} (ha : lo < a) {v : Int}
    (hv : v ≠ 0) : Mem.wfAbove lo (Mem.put m a v) = true := by
  induction m generalizing lo with
  | nil => simp [Mem.put, Mem.wfAbove, ha, hv]
  | cons c rest ih =>
    obtain ⟨b, w⟩ := c
    simp only [Mem.wfAbove, Bool.and_eq_true, decide_eq_true_eq] at h
    rw [Mem.put]
    split
    · simp only [Mem.wfAbove, Bool.and_eq_true, decide_eq_true_eq]
      exact ⟨⟨ha, hv⟩, ⟨by omega, h.1.2⟩, h.2⟩
    · split
      · subst a
        simp only [Mem.wfAbove, Bool.and_eq_true, decide_eq_true_eq]
        exact ⟨⟨ha, hv⟩, h.2⟩
      · simp only [Mem.wfAbove, Bool.and_eq_true, decide_eq_true_eq]
        exact ⟨h.1, ih h.2 (by omega)⟩

/-- A write keeps the canonical form. -/
theorem write_wf {m : Mem} (h : Mem.wf m = true) (a : Nat) (v : Int) : Mem.wf (Mem.write m a v) = true := by
  rw [Mem.write]
  cases m with
  | nil => split <;> simp_all [Mem.drop, Mem.put, Mem.wf, Mem.wfAbove]
  | cons c rest =>
    obtain ⟨b, w⟩ := c
    simp only [Mem.wf, Bool.and_eq_true, decide_eq_true_eq] at h
    split
    · rw [Mem.drop]
      split
      · exact wf_of_wfAbove h.2
      · simp only [Mem.wf, Bool.and_eq_true, decide_eq_true_eq]
        exact ⟨h.1, wfAbove_drop h.2 a⟩
    · rw [Mem.put]
      split
      · simp only [Mem.wf, Mem.wfAbove, Bool.and_eq_true, decide_eq_true_eq]
        exact ⟨‹_›, ⟨‹_›, h.1⟩, h.2⟩
      · split
        · subst a
          simp only [Mem.wf, Bool.and_eq_true, decide_eq_true_eq]
          exact ⟨‹_›, h.2⟩
        · simp only [Mem.wf, Bool.and_eq_true, decide_eq_true_eq]
          exact ⟨h.1, wfAbove_put h.2 (by omega) ‹_›⟩

/-- An optional write keeps the canonical form. -/
theorem writeMem_wf {m : Mem} (h : Mem.wf m = true) (w : Option (Nat × Int)) : Mem.wf (writeMem m w) = true := by
  cases w with
  | none => exact h
  | some c => exact write_wf h c.1 c.2

/-- Placing values keeps the canonical form. -/
theorem place_wf {m : Mem} (h : Mem.wf m = true) (a : Nat) (vs : List Int) : Mem.wf (Mem.place m a vs) = true := by
  induction vs generalizing m a with
  | nil => exact h
  | cons v rest ih => exact ih (write_wf h a v) (a + 1)

/-- The memory after reset is in canonical form. -/
theorem reset_mem_wf : Mem.wf State.reset.mem = true := rfl

/-- What a write lists was listed before, or is the cell written. -/
theorem mem_of_mem_write {m : Mem} {a : Nat} {v : Int} {c : MemCell} (h : c ∈ Mem.write m a v) :
    c ∈ m ∨ c = (a, v) := by
  rw [Mem.write] at h
  split at h
  · left
    induction m with
    | nil => simp [Mem.drop] at h
    | cons d rest ih =>
      obtain ⟨b, w⟩ := d
      rw [Mem.drop] at h
      split at h
      · exact List.mem_cons_of_mem _ h
      · rcases List.mem_cons.mp h with h | h
        · exact h ▸ List.mem_cons_self
        · exact List.mem_cons_of_mem _ (ih h)
  · induction m with
    | nil => right; simpa [Mem.put] using h
    | cons d rest ih =>
      obtain ⟨b, w⟩ := d
      rw [Mem.put] at h
      split at h
      · rcases List.mem_cons.mp h with h | h
        · exact .inr h
        · exact .inl h
      · split at h
        · rcases List.mem_cons.mp h with h | h
          · exact .inr h
          · exact .inl (List.mem_cons_of_mem _ h)
        · rcases List.mem_cons.mp h with h | h
          · exact .inl (h ▸ List.mem_cons_self)
          · exact (ih h).imp (List.mem_cons_of_mem _) id

/-- A read gives a listed value, or 0. -/
theorem read_eq_zero_or_mem (m : Mem) (a : Nat) : Mem.read m a = 0 ∨ (a, Mem.read m a) ∈ m := by
  induction m with
  | nil => exact .inl rfl
  | cons c rest ih =>
    obtain ⟨b, w⟩ := c
    rw [Mem.read]
    split
    · right; subst a; exact List.mem_cons_self
    · exact ih.imp id (List.mem_cons_of_mem _)

end Sys2Proof.Machine
end

