-- ==== Sys2Proof/Laws/State.lean ====
section
/-! SUPPORT. One lemma for each field under each update of the state: taking a fault, committing an effect, settling. -/

namespace Sys2Proof.Machine

@[simp] theorem raise_mem (f : Fault) (s : State) : (raise f s).mem = s.mem := rfl
@[simp] theorem raise_pc (f : Fault) (s : State) : (raise f s).pc = s.pc := rfl
@[simp] theorem raise_rb (f : Fault) (s : State) : (raise f s).rb = s.rb := rfl
@[simp] theorem raise_inr (f : Fault) (s : State) : (raise f s).inr = s.inr := rfl
@[simp] theorem raise_outq (f : Fault) (s : State) : (raise f s).outq = s.outq := rfl
@[simp] theorem raise_halted (f : Fault) (s : State) : (raise f s).halted = s.halted := rfl
@[simp] theorem raise_fault (f : Fault) (s : State) : (raise f s).fault = some f := rfl

@[simp] theorem commit_mem (e : Effect) (s : State) : (commit e s).mem = writeMem s.mem e.write := rfl
@[simp] theorem commit_pc (e : Effect) (s : State) : (commit e s).pc = e.nextPc := rfl
@[simp] theorem commit_rb (e : Effect) (s : State) : (commit e s).rb = e.newRb.getD s.rb := rfl
@[simp] theorem commit_inr (e : Effect) (s : State) : (commit e s).inr = s.inr := rfl
@[simp] theorem commit_outq (e : Effect) (s : State) : (commit e s).outq = s.outq ++ e.output.toList := rfl
@[simp] theorem commit_halted (e : Effect) (s : State) : (commit e s).halted = (s.halted || e.halts) := rfl
@[simp] theorem commit_fault (e : Effect) (s : State) : (commit e s).fault = s.fault := rfl

@[simp] theorem writeMem_none (m : Mem) : writeMem m none = m := rfl
@[simp] theorem writeMem_some (m : Mem) (a : Nat) (v : Int) : writeMem m (some (a, v)) = Mem.write m a v := rfl

@[simp] theorem settle_ok (e : Effect) (s : State) : settle (.ok e) s = commit e s := rfl
@[simp] theorem settle_error (f : Fault) (s : State) : settle (.error f) s = raise f s := rfl

/-- Everything settling can do: the effect commits, or only the fault is recorded. -/
theorem settle_cases (r : Except Fault Effect) (s : State) :
    (∃ e, r = .ok e ∧ settle r s = commit e s) ∨ (∃ f, r = .error f ∧ settle r s = raise f s) := by
  cases r with
  | ok e => exact .inl ⟨e, rfl, rfl⟩
  | error f => exact .inr ⟨f, rfl, rfl⟩

theorem running_iff (s : State) : running s = true ↔ s.fault = none ∧ s.halted = false := by
  cases h : s.fault <;> simp [running, h]

end Sys2Proof.Machine
end

