-- ==== Sys2Proof/Laws/Operands.lean ====
section
/-! SUPPORT. One lemma for each shared operation of the resolver: when it answers, and what. -/

namespace Sys2Proof.Machine

/-! ## Ranges -/

@[simp] theorem inVal_hardware (v : Int) : inVal hardware v = true := rfl

@[simp] theorem legalAddr_hardware (a : Int) : legalAddr hardware a = decide (0 ≤ a) := by
  simp [legalAddr, leValMax, hardware]

/-- 0 is a value of every width. -/
theorem inVal_zero (P : Params) : inVal P 0 = true := by
  unfold inVal geValMin leValMax
  cases hc : P.cellBits with
  | inf => rfl
  | finite n =>
    have h : (0 : Int) < 2 ^ (n - 1) := by positivity
    simp only [Bool.and_eq_true, decide_eq_true_eq]
    omega

/-- With a width R5 allows, 1 is a value. -/
theorem inVal_one {P : Params} (hP : P.legal = true) : inVal P 1 = true := by
  unfold Params.legal at hP
  unfold inVal geValMin leValMax
  cases hc : P.cellBits with
  | inf => rfl
  | finite n =>
    simp only [hc, decide_eq_true_eq] at hP
    have h : (2 : Int) ^ 1 ≤ 2 ^ (n - 1) := by
      apply pow_le_pow_right₀ <;> omega
    simp only [Bool.and_eq_true, decide_eq_true_eq]
    omega

theorem inVal_truthValue {P : Params} (hP : P.legal = true) (b : Bool) : inVal P (truthValue b) = true := by
  cases b
  · exact inVal_zero P
  · exact inVal_one hP

/-- A legal address is not negative. -/
theorem nonneg_of_legalAddr {P : Params} {a : Int} (h : legalAddr P a = true) : 0 ≤ a := by
  simp only [legalAddr, Bool.and_eq_true, decide_eq_true_eq] at h
  exact h.1

/-! ## The resolver -/

theorem legalCell_ok {P : Params} {a : Int} {c : Nat} :
    legalCell P a = .ok c ↔ legalAddr P a = true ∧ c = a.toNat := by
  unfold legalCell
  by_cases h : legalAddr P a = true
  · simp only [h, if_true, Except.ok.injEq, true_and]
    exact eq_comm
  · simp [h]

theorem inLegal_hardware (s : State) (o : InOperand) :
    inLegal hardware s o = true ↔ ∀ a, inAddr s o = some a → 0 ≤ a := by
  unfold inLegal
  cases inAddr s o <;> simp

theorem outLegal_hardware (s : State) (o : OutOperand) : outLegal hardware s o = true ↔ 0 ≤ outAddr s o := by
  simp [outLegal]

theorem legalCell_error {P : Params} {a : Int} {f : Fault} :
    legalCell P a = .error f ↔ legalAddr P a = false ∧ f = .invalidAddress a := by
  unfold legalCell
  by_cases h : legalAddr P a = true
  · simp [h]
  · simp only [h, Bool.false_eq_true, if_false, Except.error.injEq, true_and]
    exact eq_comm

theorem checkParam_eq (P : Params) (s : State) (k : Nat) :
    checkParam P s k = if legalAddr P (s.pc + k) then .ok () else .error (.invalidAddress (s.pc + k)) := rfl

/-- `resolveIn` answers exactly when the operand's address, if it has one, is legal. -/
theorem resolveIn_ok {P : Params} {s : State} {o : InOperand} {v : Int} :
    resolveIn P s o = .ok v ↔ inLegal P s o = true ∧ v = inValue s o := by
  unfold resolveIn inLegal
  cases h : inAddr s o with
  | none =>
    simp only [Except.ok.injEq, Option.all_none, true_and]
    exact eq_comm
  | some a =>
    by_cases hl : legalAddr P a = true
    · simp only [hl, if_true, Except.ok.injEq, Option.all_some, true_and]
      exact eq_comm
    · simp [hl]

/-- `resolveIn` faults exactly with an illegal address. -/
theorem resolveIn_error {P : Params} {s : State} {o : InOperand} {f : Fault} :
    resolveIn P s o = .error f ↔ ∃ a, inAddr s o = some a ∧ legalAddr P a = false ∧ f = .invalidAddress a := by
  unfold resolveIn
  cases h : inAddr s o with
  | none => simp
  | some a =>
    by_cases hl : legalAddr P a = true
    · simp [hl]
    · simp only [hl, Option.some.injEq, exists_eq_left', true_and]
      simp [eq_comm]

/-- An IN parameter answers exactly when its cell and its address are legal. -/
theorem fetchIn_ok {P : Params} {s : State} {k : Nat} {o : InOperand} {v : Int} :
    fetchIn P s k o = .ok v ↔
      legalAddr P (s.pc + k) = true ∧ inLegal P s o = true ∧ v = inValue s o := by
  unfold fetchIn checkParam
  by_cases h : legalAddr P (s.pc + k) = true
  · simp only [h, if_true, true_and]
    exact resolveIn_ok
  · simp [h, bind, Except.bind]

/-- An OUT parameter answers exactly when its cell and its address are legal. -/
theorem fetchOut_ok {P : Params} {s : State} {k : Nat} {o : OutOperand} {c : Nat} :
    fetchOut P s k o = .ok c ↔
      legalAddr P (s.pc + k) = true ∧ outLegal P s o = true ∧ c = (outAddr s o).toNat := by
  unfold fetchOut checkParam resolveOut
  by_cases h : legalAddr P (s.pc + k) = true
  · simp only [h, if_true, true_and]
    exact legalCell_ok
  · simp [h, bind, Except.bind]

theorem checkedVal_ok {P : Params} {s : State} {v w : Int} :
    checkedVal P s v = .ok w ↔ inVal P v = true ∧ w = v := by
  unfold checkedVal
  by_cases h : inVal P v = true
  · simp only [h, if_true, Except.ok.injEq, true_and]
    exact eq_comm
  · simp [h]

theorem checkedVal_error {P : Params} {s : State} {v : Int} {f : Fault} :
    checkedVal P s v = .error f ↔ inVal P v = false ∧ f = .valueOverflow (cellAtPc s) := by
  unfold checkedVal
  by_cases h : inVal P v = true
  · simp [h]
  · simp only [h, Bool.false_eq_true, if_false, Except.error.injEq, true_and]
    exact eq_comm

/-- On this hardware every value is in range. -/
@[simp] theorem checkedVal_hardware (s : State) (v : Int) : checkedVal hardware s v = .ok v := rfl

@[simp] theorem advance_hardware (s : State) (op : Opcode) :
    advance hardware s op = .ok (s.pc + opcodeLength op) := rfl

/-! ## Sequencing -/

/-- A sequence answers exactly when both parts do. -/
theorem except_bind_ok {ε α β : Type} {x : Except ε α} {f : α → Except ε β} {b : β} :
    (x >>= f) = .ok b ↔ ∃ a, x = .ok a ∧ f a = .ok b := by
  cases x <;> simp [bind, Except.bind]

/-- A sequence fails with the first failure. -/
theorem except_bind_error {ε α β : Type} {x : Except ε α} {f : α → Except ε β} {e : ε} :
    (x >>= f) = .error e ↔ x = .error e ∨ ∃ a, x = .ok a ∧ f a = .error e := by
  cases x <;> simp [bind, Except.bind]

/-! ## The shared courses -/

/-- Everything `ADD`, `MUL`, `LT` and `EQ` can do when they answer. -/
theorem effectF3_ok {P : Params} {op : Opcode} {f : Int → Int → Int} {a b : InOperand} {d : OutOperand} {s : State}
    {e : Effect} (h : effectF3 P op f a b d s = .ok e) :
    inVal P (f (inValue s a) (inValue s b)) = true ∧ inVal P (s.pc + opcodeLength op) = true ∧
      outLegal P s d = true ∧
      e = { write := some ((outAddr s d).toNat, f (inValue s a) (inValue s b)),
            nextPc := s.pc + opcodeLength op } := by
  simp only [effectF3, except_bind_ok, fetchIn_ok, fetchOut_ok, advance, checkedVal_ok, pure, Except.pure,
    Except.ok.injEq] at h
  obtain ⟨x, ⟨-, -, rfl⟩, y, ⟨-, -, rfl⟩, c, ⟨-, hd, rfl⟩, r, ⟨hr, rfl⟩, n, ⟨hn, rfl⟩, rfl⟩ := h
  exact ⟨hr, hn, hd, rfl⟩

/-- Everything the two jumps can do when they answer. -/
theorem effectJump_ok {P : Params} {op : Opcode} {taken : Int → Bool} {a t : InOperand} {s : State} {e : Effect}
    (h : effectJump P op taken a t s = .ok e) :
    (taken (inValue s a) = true ∧ e = { nextPc := inValue s t }) ∨
      (taken (inValue s a) = false ∧ inVal P (s.pc + opcodeLength op) = true ∧
        e = { nextPc := s.pc + opcodeLength op }) := by
  simp only [effectJump, except_bind_ok, fetchIn_ok] at h
  obtain ⟨x, ⟨-, -, rfl⟩, y, ⟨-, -, rfl⟩, h⟩ := h
  split at h
  · left
    simp only [pure, Except.pure, Except.ok.injEq] at h
    exact ⟨‹_›, h.symm⟩
  · right
    simp only [except_bind_ok, advance, checkedVal_ok, pure, Except.pure, Except.ok.injEq] at h
    obtain ⟨n, ⟨hn, rfl⟩, rfl⟩ := h
    exact ⟨Bool.eq_false_iff.mpr ‹_›, hn, rfl⟩

end Sys2Proof.Machine
end

