-- ==== Sys2Proof/Laws/PerInstr.lean ====
section
/-! SUPPORT. The family `EncodeForm` over all instructions: the cells an instruction takes and the number its first cell
names (R90, R91, R94, R100). -/

namespace Sys2Proof.Laws

/-- An instruction is encoded in as many cells as its opcode alone says, and the two low digits of its instruction cell
are its opcode's number. -/
def EncodeForm.Statement (i : Instr) : Prop :=
  (encode i).length = opcodeLength i.opcode ∧ fmod (encodeCell i) 100 = opcodeNumber i.opcode

theorem EncodeForm.add (a b : InOperand) (d : OutOperand) : EncodeForm.Statement (.add a b d) := by
  cases a <;> cases b <;> cases d <;> exact ⟨rfl, rfl⟩

theorem EncodeForm.mul (a b : InOperand) (d : OutOperand) : EncodeForm.Statement (.mul a b d) := by
  cases a <;> cases b <;> cases d <;> exact ⟨rfl, rfl⟩

theorem EncodeForm.inp (d : OutOperand) : EncodeForm.Statement (.inp d) := by
  cases d <;> exact ⟨rfl, rfl⟩

theorem EncodeForm.out (a : InOperand) : EncodeForm.Statement (.out a) := by
  cases a <;> exact ⟨rfl, rfl⟩

theorem EncodeForm.jnz (a t : InOperand) : EncodeForm.Statement (.jnz a t) := by
  cases a <;> cases t <;> exact ⟨rfl, rfl⟩

theorem EncodeForm.jz (a t : InOperand) : EncodeForm.Statement (.jz a t) := by
  cases a <;> cases t <;> exact ⟨rfl, rfl⟩

theorem EncodeForm.lt (a b : InOperand) (d : OutOperand) : EncodeForm.Statement (.lt a b d) := by
  cases a <;> cases b <;> cases d <;> exact ⟨rfl, rfl⟩

theorem EncodeForm.eq (a b : InOperand) (d : OutOperand) : EncodeForm.Statement (.eq a b d) := by
  cases a <;> cases b <;> cases d <;> exact ⟨rfl, rfl⟩

theorem EncodeForm.arb (a : InOperand) : EncodeForm.Statement (.arb a) := by
  cases a <;> exact ⟨rfl, rfl⟩

theorem EncodeForm.hlt : EncodeForm.Statement .hlt :=
  ⟨rfl, rfl⟩

end Sys2Proof.Laws
end

