-- ==== Sys2Proof/Laws/Step.lean ====
section
/-! SUPPORT. `exec` over the shared operations, and everything a step command can do. -/

namespace Sys2Proof.Machine

/-- `exec` is the action of this hardware, settled. -/
theorem exec_eq_settle (i : Instr) (s : State) : exec i s = .next (settle (effectOf hardware i s) s) := by
  cases i <;> rfl

/-- The fetched instruction of a running state is what the decoder reads at a legal `PC`. -/
theorem fetchInstr_ok {P : Params} {s : State} {i : Instr} :
    fetchInstr P s = .ok i ↔ legalAddr P s.pc = true ∧ decodeAtPc P s = .ok i := by
  unfold fetchInstr fetchCell
  by_cases h : legalAddr P s.pc = true
  · simp only [h, if_true, true_and, bind, Except.bind]
    cases decodeAtPc P s <;> simp [pure, Except.pure, throw, throwThe, MonadExceptOf.throw]
  · simp [h, bind, Except.bind]

/-- Everything a fetch can fail with: an illegal `PC`, else the reject of the decoder. -/
theorem fetchInstr_error {P : Params} {s : State} {f : Fault} :
    fetchInstr P s = .error f ↔
      (legalAddr P s.pc = false ∧ f = .invalidAddress s.pc) ∨
        (legalAddr P s.pc = true ∧ ∃ r, decodeAtPc P s = .error r ∧ f = rejectFault r) := by
  unfold fetchInstr fetchCell
  by_cases h : legalAddr P s.pc = true
  · simp only [h, if_true, true_and, bind, Except.bind]
    cases decodeAtPc P s <;> simp [pure, Except.pure, throw, throwThe, MonadExceptOf.throw, eq_comm]
  · simp [h, bind, Except.bind, eq_comm]

/-- Everything the command `step` can do. -/
theorem stepCommand_cases (P : Params) (s : State) :
    (∃ f, s.fault = some f ∧ stepCommand P s = (s, .faulted f)) ∨
      (s.fault = none ∧ s.halted = true ∧ stepCommand P s = (s, .alreadyHalted)) ∨
      (running s = true ∧ ∃ i e, fetchInstr P s = .ok i ∧ effectOf P i s = .ok e ∧
        stepCommand P s = (commit e s, .stepped)) ∨
      (running s = true ∧ ∃ f, transition P s = .error f ∧ stepCommand P s = (raise f s, .faulted f)) := by
  unfold stepCommand
  cases hf : s.fault with
  | some f => exact .inl ⟨f, rfl, rfl⟩
  | none =>
    right
    cases hh : s.halted with
    | true => exact .inl ⟨rfl, rfl, rfl⟩
    | false =>
      right
      have hr : running s = true := (running_iff s).mpr ⟨hf, hh⟩
      cases ht : transition P s with
      | error f => exact .inr ⟨hr, f, rfl, rfl⟩
      | ok e =>
        obtain ⟨i, hi, he⟩ := except_bind_ok.mp ht
        exact .inl ⟨hr, i, e, hi, he, rfl⟩

end Sys2Proof.Machine
end

