-- ==== Sys2Proof/Tests/Slice0.lean ====
section
/-! SUPPORT. Tests, their expected results taken from the vectors V-… and S… of spec/95_test_vectors.md or worked out from
the rule cited; then, for every statement with hypotheses, a concrete case that meets them. -/

namespace Sys2Proof.Tests

open Sys2Proof Sys2Proof.Machine

/-! ## Helpers -/

/-- The state after `construct`, moved to a `PC` and an `RB`. -/
def at_ (image : List Int) (input : Option Int) (pc rb : Int) : State :=
  { constructed image input with pc := pc, rb := rb }

/-- The next state an outcome answers. -/
def nextOf (o : Host.Outcome State Fault Refusal) : Option State :=
  match o with
  | .next s => some s
  | _ => none

/-- The state one host step leaves. -/
def after (s : State) : Option State :=
  nextOf (step s)

/-- 64 bits, with the strict decoder. -/
def strict64 : Params :=
  { hardware64 with unusedDigits := .fault }

/-- The hardware with `DECODE_MOD = truncated`. -/
def truncating : Params :=
  { hardware with decodeMod := .truncated }

/-- The hardware with `UNUSED_MODE_DIGITS = fault`. -/
def strict : Params :=
  { hardware with unusedDigits := .fault }

/-- `MAX` and `MIN` of the vectors. -/
def max64 : Int := 9223372036854775807
def min64 : Int := -9223372036854775808

/-! ## Parameters and numbers -/

/-- R5: 64 is the least finite width. -/
theorem test_legal_widths : Params.legal hardware64 = true ∧
    Params.legal { hardware with cellBits := .finite 63 } = false ∧ Params.legal hardware = true := by decide

/-- R5: the ends of `VAL` for 64 bits. -/
theorem test_val_ends : inVal hardware64 max64 = true ∧ inVal hardware64 (max64 + 1) = false ∧
    inVal hardware64 min64 = true ∧ inVal hardware64 (min64 - 1) = false := by decide

/-- R6: the ends of the addresses. -/
theorem test_address_ends : legalAddr hardware64 0 = true ∧ legalAddr hardware64 (-1) = false ∧
    legalAddr hardware64 max64 = true ∧ legalAddr hardware64 (max64 + 1) = false ∧
    legalAddr hardware (max64 + 1) = true := by decide

/-- R12: -7 and 2 tell the two divisions apart. -/
theorem test_division : fdiv (-7) 2 = -4 ∧ fmod (-7) 2 = 1 ∧ tdiv (-7) 2 = -3 ∧ tmod (-7) 2 = -1 := by decide

/-! ## WellFormed: an ill-formed term for each format -/

theorem test_wellFormed_takes_the_ends :
    (Instr.add (.immediate max64) (.immediate min64) (.position max64)).wellFormed hardware64 = true := by decide

theorem test_wellFormed_refuses_first :
    (Instr.add (.immediate (max64 + 1)) (.immediate 0) (.position 0)).wellFormed hardware64 = false := by decide

theorem test_wellFormed_refuses_second :
    (Instr.jnz (.immediate 1) (.relative (min64 - 1))).wellFormed hardware64 = false := by decide

theorem test_wellFormed_refuses_third :
    (Instr.lt (.immediate 0) (.immediate 0) (.relative (max64 + 1))).wellFormed hardware64 = false := by decide

theorem test_wellFormed_refuses_target : (Instr.inp (.position (max64 + 1))).wellFormed hardware64 = false := by decide

theorem test_wellFormed_refuses_single : (Instr.arb (.position (min64 - 1))).wellFormed hardware64 = false := by decide

/-! ## Decode, one word for each constructor -/

/-- V-D1, V-D2. -/
theorem test_decode_add : decode hardware 1 7 8 9 = .ok (.add (.position 7) (.position 8) (.position 9)) ∧
    decode hardware 1101 7 8 9 = .ok (.add (.immediate 7) (.immediate 8) (.position 9)) := by decide

/-- V-D4. -/
theorem test_decode_mul : decode hardware 22202 7 8 9 = .ok (.mul (.relative 7) (.relative 8) (.relative 9)) := by decide

/-- V-D6, V-D25. -/
theorem test_decode_in : decode hardware 3 7 8 9 = .ok (.inp (.position 7)) ∧
    decode hardware 103 7 8 9 = .error (.invalidAddressingMode 103) := by decide

/-- V-D9, V-D27. -/
theorem test_decode_out : decode hardware 204 7 8 9 = .ok (.out (.relative 7)) ∧
    decode hardware 904 7 8 9 = .error (.invalidAddressingMode 904) := by decide

/-- V-D10, V-D28. -/
theorem test_decode_jnz : decode hardware 1105 7 8 9 = .ok (.jnz (.immediate 7) (.immediate 8)) ∧
    decode hardware 3105 7 8 9 = .error (.invalidAddressingMode 3105) := by decide

/-- R108: hundreds digit 2 for parameter 1, thousands digit 1 for parameter 2. -/
theorem test_decode_jz : decode hardware 1206 7 8 9 = .ok (.jz (.relative 7) (.immediate 8)) := by decide

/-- R108, V-D30. -/
theorem test_decode_lt : decode hardware 20107 7 8 9 = .ok (.lt (.immediate 7) (.position 8) (.relative 9)) ∧
    decode hardware 10007 7 8 9 = .error (.invalidAddressingMode 10007) := by decide

/-- R108. -/
theorem test_decode_eq : decode hardware 1208 7 8 9 = .ok (.eq (.relative 7) (.immediate 8) (.position 9)) := by decide

/-- R108, V-D31. -/
theorem test_decode_arb : decode hardware 209 7 8 9 = .ok (.arb (.relative 7)) ∧
    decode hardware 309 7 8 9 = .error (.invalidAddressingMode 309) := by decide

/-- V-D16, V-D33, V-D39. -/
theorem test_decode_hlt : decode hardware 199 7 8 9 = .ok .hlt ∧
    decode strict 1099 7 8 9 = .error (.invalidAddressingMode 1099) ∧ decode hardware (-101) 7 8 9 = .ok .hlt := by decide

/-- V-D32: the digit at `10^5`. -/
theorem test_decode_high_digit : decode hardware 100001 7 8 9 = .ok (.add (.position 7) (.position 8) (.position 9)) ∧
    decode strict 100001 7 8 9 = .error (.invalidAddressingMode 100001) := by decide

/-- V-D35: mode digit 3 on an absent parameter. -/
theorem test_decode_unused_digit : decode hardware 3004 7 8 9 = .ok (.out (.position 7)) ∧
    decode strict 3004 7 8 9 = .error (.invalidAddressingMode 3004) := by decide

/-- V-D40: a negative cell that is an `ADD`, and is none under truncation. -/
theorem test_decode_negative : decode hardware (-99999) 7 8 9 = .ok (.add (.position 7) (.position 8) (.position 9)) ∧
    decode truncating (-99999) 7 8 9 = .error (.unknownOpcode (-99999)) := by decide

/-- V-D17, V-D18, V-D19, V-D22, V-D38. -/
theorem test_decode_unknown : decode hardware 0 7 8 9 = .error (.unknownOpcode 0) ∧
    decode hardware 5000 7 8 9 = .error (.unknownOpcode 5000) ∧ decode hardware 98 7 8 9 = .error (.unknownOpcode 98) ∧
    decode hardware 13 7 8 9 = .error (.unknownOpcode 13) ∧
    decode hardware (-100) 7 8 9 = .error (.unknownOpcode (-100)) := by decide

/-- The host's two questions for `HLT` and `ADD`: an 8-bit row. -/
theorem test_table_word : decodeTableWord 8 99 = some .hlt ∧
    decodeTableWord 8 1 = some (.add (.position 0) (.position 0) (.position 0)) ∧
    after (State.reset.withFetchWord 8 99) = some { State.reset.withFetchWord 8 99 with halted := true } := by decide

/-! ## One step of each instruction -/

/-- S2: the instruction overwrites its own cell. -/
theorem test_add_self : after (at_ [1, 0, 0, 0, 99] none 0 0) = some (at_ [2, 0, 0, 0, 99] none 4 0) := by decide

/-- V-A6 and V-A5. -/
theorem test_add_at_max :
    stepCommand hardware64 (at_ [1101, max64, 1, 5, 99] none 0 0) =
      (raise (.valueOverflow 1101) (at_ [1101, max64, 1, 5, 99] none 0 0), .faulted (.valueOverflow 1101)) ∧
    after (at_ [1101, max64, 1, 5, 99] none 0 0) = some (at_ [1101, max64, 1, 5, 99, max64 + 1] none 4 0) := by decide

/-- V-M3, by one step. -/
theorem test_mul_signs : after (at_ [1102, -3, 4, 5, 99, 0] none 0 0) =
    some (at_ [1102, -3, 4, 5, 99, -12] none 4 0) := by decide

/-- V-M9, V-M13: the product 2^63 - 1 is passed, and -2^63 is exactly reached. -/
theorem test_mul_ends :
    (stepCommand hardware64 (at_ [1102, 3037000500, 3037000500, 5, 99] none 0 0)).2 = .faulted (.valueOverflow 1102) ∧
    stepCommand hardware64 (at_ [1102, 4294967296, -2147483648, 5, 99] none 0 0) =
      (at_ [1102, 4294967296, -2147483648, 5, 99, min64] none 4 0, .stepped) := by decide

/-- V-I1: the input stays. -/
theorem test_in_keeps_input : after (at_ [3, 0, 99] (some 42) 0 0) = some (at_ [42, 0, 99] (some 42) 2 0) := by decide

/-- V-I7, V-F10. -/
theorem test_in_faults :
    after (at_ [3, -1, 99] none 0 0) = some (raise (.invalidAddress (-1)) (at_ [3, -1, 99] none 0 0)) ∧
    after (at_ [10003, 0] none 0 0) = some (raise (.inputUnset 10003) (at_ [10003, 0] none 0 0)) := by decide

/-- V-P3, its second step: `MEM[2 + 1] = 1`. -/
theorem test_out_relative : after (at_ [109, 2, 204, 1, 99] none 2 2) =
    some { at_ [109, 2, 204, 1, 99] none 4 2 with outq := [1] } := by decide

/-- V-O9, its second step: address -3. -/
theorem test_out_bad_address : after (at_ [109, -5, 204, 2, 99] none 2 (-5)) =
    some (raise (.invalidAddress (-3)) (at_ [109, -5, 204, 2, 99] none 2 (-5))) := by decide

/-- V-J4 and V-J2. -/
theorem test_jnz : after (at_ [5, 7, 8, 99, 104, 7, 99, 2, 4] none 0 0) =
      some (at_ [5, 7, 8, 99, 104, 7, 99, 2, 4] none 4 0) ∧
    after (at_ [1105, 0, 4, 99] none 0 0) = some (at_ [1105, 0, 4, 99] none 3 0) := by decide

/-- V-J12: the jump to -3 commits, the next fetch faults. -/
theorem test_jnz_to_illegal : after (at_ [1105, 1, -3] none 0 0) = some (at_ [1105, 1, -3] none (-3) 0) ∧
    after (at_ [1105, 1, -3] none (-3) 0) =
      some (raise (.invalidAddress (-3)) (at_ [1105, 1, -3] none (-3) 0)) := by decide

/-- V-J8 and V-J7. -/
theorem test_jz : after (at_ [6, 7, 8, 99, 104, 7, 99, 0, 4] none 0 0) =
      some (at_ [6, 7, 8, 99, 104, 7, 99, 0, 4] none 4 0) ∧
    after (at_ [1106, 5, 4, 99] none 0 0) = some (at_ [1106, 5, 4, 99] none 3 0) := by decide

/-- V-C4: signed. -/
theorem test_lt_signed : after (at_ [1107, -1, 0, 5, 99] none 0 0) =
    some (at_ [1107, -1, 0, 5, 99, 1] none 4 0) := by decide

/-- V-C2: equal is not less, and the old 7 is replaced by 0. -/
theorem test_lt_equal : after (at_ [1107, 2, 2, 5, 99, 7] none 0 0) = some (at_ [1107, 2, 2, 5, 99] none 4 0) := by decide

/-- V-C14: the sign matters. -/
theorem test_eq_signed : after (at_ [1108, -1, 1, 5, 99, 1] none 0 0) = some (at_ [1108, -1, 1, 5, 99] none 4 0) := by decide

/-- V-C12: `8 = 8`. -/
theorem test_eq_self : after (at_ [8, 0, 0, 0, 99] none 0 0) = some (at_ [1, 0, 0, 0, 99] none 4 0) := by decide

/-- V-B4, its second step: the old `RB` resolves the operand. -/
theorem test_arb_old_base : after (at_ [109, 5, 209, -3, 99] none 2 5) =
    some (at_ [109, 5, 209, -3, 99] none 4 214) := by decide

/-- V-B8, its second step. -/
theorem test_arb_overflow : stepCommand hardware64 (at_ [109, min64, 109, -1, 99] none 2 min64) =
    (raise (.valueOverflow 109) (at_ [109, min64, 109, -1, 99] none 2 min64), .faulted (.valueOverflow 109)) := by decide

/-- S1, V-H3: `PC` stays, and the next step changes nothing. -/
theorem test_hlt : after (at_ [99] none 0 0) = some { at_ [99] none 0 0 with halted := true } ∧
    stepCommand hardware { at_ [99] none 0 0 with halted := true } =
      ({ at_ [99] none 0 0 with halted := true }, .alreadyHalted) := by decide

/-- V-F15, its third step: the last cell of a 64-bit machine. -/
theorem test_hlt_in_last_cell :
    stepCommand hardware64 { at_ [] none max64 0 with mem := [(9223372036854775807, 99)] } =
      ({ at_ [] none max64 0 with mem := [(9223372036854775807, 99)], halted := true }, .stepped) := by decide

/-! ## Faults -/

/-- R220: the codes. -/
theorem test_fault_codes : [faultCode (.unknownOpcode 0), faultCode (.invalidAddressingMode 0),
    faultCode (.invalidAddress 0), faultCode (.inputUnset 0), faultCode (.valueOverflow 0)] = [1, 2, 3, 4, 5] := by decide

/-- V-F5: parameter 1 is immediate and not checked. -/
theorem test_fault_second_parameter : after (at_ [101, 5, -2, -3, 99] none 0 0) =
    some (raise (.invalidAddress (-2)) (at_ [101, 5, -2, -3, 99] none 0 0)) := by decide

/-- V-F13, its third step: the output is not appended. -/
theorem test_fault_next_pc :
    stepCommand hardware64 { at_ [] none (max64 - 1) 0 with mem := [(9223372036854775806, 104)] } =
      (raise (.valueOverflow 104) { at_ [] none (max64 - 1) 0 with mem := [(9223372036854775806, 104)] },
        .faulted (.valueOverflow 104)) := by decide

/-- V-F14, its third step: parameter 2 lies beyond `ADDR_MAX`. -/
theorem test_fault_parameter_fetch :
    (stepCommand hardware64 { at_ [] none (max64 - 1) 0 with mem := [(9223372036854775806, 1101)] }).2 =
      .faulted (.invalidAddress 9223372036854775808) := by decide

/-! ## Controller -/

/-- S5: the fourth call is answered `HaltedNoOutput`. -/
theorem test_run_until_output :
    (commands hardware [.construct [104, 1, 104, 2, 99] none, .runUntilOutput 5, .runUntilOutput 5, .runUntilOutput 5,
      .outputs, .pc] State.reset).2 =
      [.done, .outputReturned (some (.output 1)), .outputReturned (some (.output 2)),
        .outputReturned (some .haltedNoOutput), .values [1, 2], .value 4] := by decide

/-- V-F12: a late input does not revive the machine. -/
theorem test_late_input :
    (commands hardware [.runUntilOutput 5, .writeInput 4, .step, .run 5, .halted] (at_ [3, 0, 99] none 0 0)).2 =
      [.outputReturned (some (.faulted (.inputUnset 3))), .done, .stepReturned (.faulted (.inputUnset 3)),
        .runReturned (some (.faulted (.inputUnset 3))), .flag false] := by decide

/-- R209: a jump to itself never returns, and the write after it is not performed; after a `step` it is. -/
theorem test_no_move_inside_run :
    commands hardware [.run 1, .writeInput 5, .run 9] (at_ [1105, 1, 0] (some 4) 0 0) =
      (at_ [1105, 1, 0] (some 4) 0 0, [.runReturned none]) ∧
    commands hardware [.step, .writeInput 5] (at_ [1105, 1, 0] (some 4) 0 0) =
      (at_ [1105, 1, 0] (some 5) 0 0, [.stepReturned .stepped, .done]) := by decide

/-- R44, log 11. -/
theorem test_peek : (command hardware (.peek 1) (at_ [5, 6] none 0 0)).2 = .value 6 ∧
    (command hardware (.peek 2) (at_ [5, 6] none 0 0)).2 = .value 0 ∧
    (command hardware (.peek (-1)) (at_ [5, 6] none 0 0)).2 = .refused (.peekIllegalAddress (-1)) := by decide

/-! ## Assembler -/

/-- The listing of P1 and its image. -/
theorem test_assemble :
    assemble [.label "loop", .instr .out [.position (.label "n")],
      .instr .add [.immediate (.num (-1)), .position (.label "n"), .position (.label "n")],
      .instr .jnz [.position (.label "n"), .immediate (.label "loop")], .instr .hlt [], .data [0], .label "n",
      .data [3]] = some [4, 11, 101, -1, 11, 11, 1005, 11, 0, 99, 0, 3] := by decide

/-- R98: an OUT operand is never immediate; a label must exist. -/
theorem test_assemble_refuses : assemble [.instr .inp [.immediate (.num 0)]] = none ∧
    assemble [.instr .out [.position (.label "n")]] = none := by decide

/-- R108, R111. -/
theorem test_disassemble : disassemble hardware [204, -3] = "OUT [RB-3]" ∧
    disassemble hardware [21101, 20, 22, 1] = "ADD #20, #22, [RB+1]" ∧
    disassemble hardware [5000] = "DATA 5000" := by decide

/-! ## The hypotheses can be met: one theorem for each statement that has any -/

theorem witness_DivisionFloorsOrTruncates : (0 : Int) < 1 ∧ (0 : Int) ≤ 7 ∧ (-7 : Int) ≤ 0 ∧ (-4 : Int) * 2 ≤ -7 := by decide

theorem witness_FieldsAreTheDecimalDigits : hardware.decodeMod = .floored := by decide

theorem witness_StrictDecoderAcceptsOnlyCanonicalCells : strict.unusedDigits = .fault ∧
    decode strict 22201 (-1) 0 1 = .ok (.add (.relative (-1)) (.relative 0) (.relative 1)) ∧
    decode strict 99 5 6 7 = .ok .hlt := by decide

theorem witness_UnusedDigitsDoNotMatter : decode hardware 99 0 0 0 = .ok .hlt ∧
    decode hardware 22201 1 2 3 = .ok (.add (.relative 1) (.relative 2) (.relative 3)) := by decide

theorem witness_TruncatedDecoderRejectsNegativeCells : truncating.decodeMod = .truncated ∧ (-1 : Int) < 0 := by decide

/-- An illegal `PC`, a legal one on a cell of 0, and a jump to -1. -/
theorem witness_FetchChecksTheProgramCounter :
    (running (at_ [] none (-1) 0) = true ∧ legalAddr hardware (-1) = false ∧ inVal hardware (-1) = true) ∧
    (running (at_ [] none max64 0) = true ∧ legalAddr hardware64 max64 = true ∧
      Mem.read (at_ [] none max64 0).mem max64.toNat = 0) ∧
    (legalAddr hardware 0 = true ∧ (stepCommand hardware (at_ [1105, 1, -1] none 0 0)).1.pc < 0) := by decide

theorem witness_UndefinedOpcodeFaults : running (at_ [10] none 0 0) = true ∧ legalAddr hardware 0 = true ∧
    opcodeField hardware (cellAtPc (at_ [10] none 0 0)) ∉ [1, 2, 3, 4, 5, 6, 7, 8, 9, 99] := by decide

/-- Digit 3 on the first input of `ADD`, digit 1 on its output (parameter 3), digit 1 on the target of `IN`. -/
theorem witness_IllegalModeDigitFaults :
    (running (at_ [301] none 0 0) = true ∧ legalAddr hardware 0 = true ∧
      opcodeField hardware 301 = opcodeNumber .add ∧ (opcodeShape .add)[0]? = some .input ∧
      modeField hardware 1 301 = 3) ∧
    (opcodeField hardware 10001 = opcodeNumber .add ∧ (opcodeShape .add)[2]? = some .output ∧
      modeField hardware 3 10001 = 1) ∧
    (opcodeField hardware 103 = opcodeNumber .inp ∧ (opcodeShape .inp)[0]? = some .output ∧
      modeField hardware 1 103 = 1) := by decide

theorem witness_StepRunsTheDecodedInstruction :
    (running (at_ [99] none 0 0) = true ∧ 0 ≤ (at_ [99] none 0 0).pc ∧
      decodeAtPc hardware (at_ [99] none 0 0) = .ok .hlt) ∧
    (running (at_ [98] none 0 0) = true ∧ decodeAtPc hardware (at_ [98] none 0 0) = .error (.unknownOpcode 98)) ∧
    running { at_ [99] none 0 0 with halted := true } = false ∧
    running (raise (.inputUnset 3) (at_ [3] none 0 0)) = false := by decide

theorem witness_StepRefinesThePseudocode : Params.legal hardware = true ∧ Params.legal strict64 = true := by decide

theorem witness_RunningStateStepsOrFaults : running (at_ [99] none 0 0) = true ∧ running State.reset = true := by decide

/-- For `CompletedStepAdvancesByItsLength` and `JumpsAndHltManageThePc`: an `ADD` that overwrites itself, an `IN`, both jumps taken and not, a `HLT`. -/
theorem witness_completed_step :
    (fetchInstr hardware (at_ [1, 0, 0, 0] none 0 0) = .ok (.add (.position 0) (.position 0) (.position 0)) ∧
      (stepCommand hardware (at_ [1, 0, 0, 0] none 0 0)).2 = .stepped) ∧
    (fetchInstr hardware (at_ [3, 0] (some 1) 0 0) = .ok (.inp (.position 0)) ∧
      (stepCommand hardware (at_ [3, 0] (some 1) 0 0)).2 = .stepped) ∧
    (fetchInstr hardware (at_ [1105, 1, -1] none 0 0) = .ok (.jnz (.immediate 1) (.immediate (-1))) ∧
      (stepCommand hardware (at_ [1105, 1, -1] none 0 0)).2 = .stepped) ∧
    (fetchInstr hardware (at_ [1106, 1, 7] none 0 0) = .ok (.jz (.immediate 1) (.immediate 7)) ∧
      (stepCommand hardware (at_ [1106, 1, 7] none 0 0)).2 = .stepped) ∧
    (fetchInstr hardware (at_ [99] none 0 0) = .ok .hlt ∧
      (stepCommand hardware (at_ [99] none 0 0)).2 = .stepped) := by decide

/-- For the completion statements of `ADD`, `MUL`, `LT`, `EQ`, `OUT`, `ARB`, `JNZ`, `JZ`: every operand form at address
0, and an immediate below 0. -/
theorem witness_operands_resolve :
    0 ≤ (at_ [] none 0 5).pc ∧ inLegal hardware (at_ [] none 0 5) (.position 0) = true ∧
    inLegal hardware (at_ [] none 0 5) (.relative (-5)) = true ∧
    inLegal hardware (at_ [] none 0 5) (.immediate (-1)) = true ∧
    outLegal hardware (at_ [] none 0 5) (.position 0) = true ∧
    outLegal hardware (at_ [] none 0 5) (.relative (-5)) = true := by decide

theorem witness_InStoresThePendingInput : 0 ≤ (at_ [] (some 0) 0 0).pc ∧
    outLegal hardware (at_ [] (some 0) 0 0) (.relative 0) = true ∧ (at_ [] (some 0) 0 0).inr = some 0 := by decide

/-- `HLT` by 99 and by 1099, at a legal and at an illegal `PC`. -/
theorem witness_HltSetsHaltedAlone : hardware.unusedDigits = .ignore ∧ hardware.decodeMod = .floored ∧
    opcodeField hardware 1099 = 99 ∧
    (running (at_ [99] none 0 0) = true ∧ opcodeField hardware (cellAtPc (at_ [99] none 0 0)) = 99 ∧
      legalAddr hardware 0 = true) ∧
    (running (at_ [99] none (-1) 0) = true ∧ opcodeField hardware (cellAtPc (at_ [99] none (-1) 0)) = 99 ∧
      legalAddr hardware (-1) = false) := by decide

theorem witness_ThreeParametersReportTheFirstIllegalAddress :
    inAddr (at_ [] none 0 0) (.position (-1)) = some (-1) ∧
    (inLegal hardware (at_ [] none 0 0) (.immediate (-1)) = true ∧
      inAddr (at_ [] none 0 (-1)) (.relative 0) = some (-1)) ∧
    outAddr (at_ [] none 0 (-1)) (.relative 0) = -1 ∧
    Instr.lt (.position 0) (.position 0) (.position 0) ∈
      [Instr.add (.position 0) (.position 0) (.position 0), .mul (.position 0) (.position 0) (.position 0),
        .lt (.position 0) (.position 0) (.position 0), .eq (.position 0) (.position 0) (.position 0)] := by decide

theorem witness_JumpsReportAnIllegalAddressTakenOrNot :
    inAddr (at_ [] none 0 0) (.position (-1)) = some (-1) ∧
    (inLegal hardware (at_ [] none 0 (-1)) (.immediate 0) = true ∧
      inAddr (at_ [] none 0 (-1)) (.relative 0) = some (-1)) ∧
    Instr.jz (.immediate 0) (.relative 0) ∈
      [Instr.jnz (.immediate 0) (.relative 0), .jz (.immediate 0) (.relative 0)] := by decide

theorem witness_OneInputReportsItsIllegalAddress :
    0 ≤ (at_ [] none 0 (-1)).pc ∧ inAddr (at_ [] none 0 (-1)) (.relative 0) = some (-1) ∧
    Instr.arb (.relative 0) ∈ [Instr.out (.relative 0), .arb (.relative 0)] := by decide

theorem witness_InFaultsOnTargetBeforeInput :
    outAddr (at_ [] none 0 0) (.position (-1)) < 0 ∧ 0 ≤ outAddr (at_ [] none 0 0) (.position 0) ∧
    (at_ [] none 0 0).inr = none := by decide

/-- `MAX + 1`, `MIN * (-1)` and `RB = MAX` with 1, each one past the end. -/
theorem witness_ResultOutsideValOverflows :
    paramsLegal hardware64 (at_ [] none 0 max64) 3 = true ∧ paramsLegal hardware64 (at_ [] none 0 max64) 1 = true ∧
    inLegal hardware64 (at_ [] none 0 max64) (.immediate max64) = true ∧
    outLegal hardware64 (at_ [] none 0 max64) (.position max64) = true ∧
    inVal hardware64 (max64 + 1) = false ∧ inVal hardware64 (min64 * (-1)) = false ∧
    inVal hardware64 ((at_ [] none 0 max64).rb + 1) = false := by decide

/-- At the last cells of a 64-bit machine a `HLT` and the taken jumps complete. -/
theorem witness_NoFallThroughPastTheLastValue :
    (inVal hardware64 (max64 + opcodeLength .hlt) = false ∧
      effectOf hardware64 .hlt (at_ [] none max64 0) = .ok { halts := true, nextPc := max64 }) ∧
    (inVal hardware64 (max64 - 2 + opcodeLength .jnz) = false ∧
      effectOf hardware64 (.jnz (.immediate 1) (.immediate 0)) (at_ [] none (max64 - 2) 0) = .ok { nextPc := 0 }) ∧
    effectOf hardware64 (.jz (.immediate 0) (.immediate 0)) (at_ [] none (max64 - 2) 0) = .ok { nextPc := 0 } := by decide

/-- A completed and a faulted storing instruction, the target read and another cell. -/
theorem witness_StoringInstructionsFrame :
    nextOf (exec (.inp (.position 0)) (at_ [] (some 7) 0 0)) = some (at_ [7] (some 7) 2 0) ∧
    nextOf (exec (.inp (.position 0)) (at_ [] none 0 0)) = some (raise (.inputUnset 0) (at_ [] none 0 0)) ∧
    ((1 : Nat) : Int) ≠ outAddr (at_ [] none 0 0) (.position 0) := by decide

theorem witness_NonStoringInstructionsFrame :
    nextOf (exec (.arb (.immediate 3)) (at_ [] none 0 0)) = some (at_ [] none 2 3) ∧
    nextOf (exec .hlt (at_ [] none 0 0)) = some { at_ [] none 0 0 with halted := true } ∧
    Instr.hlt ≠ .arb (.immediate 3) ∧ Instr.hlt ≠ .out (.immediate 3) ∧ Instr.jnz (.immediate 0) (.immediate 0) ≠ .hlt := by
  decide

theorem witness_MemoriesThatReadAlikeAreEqual : Mem.wf [(0, 1), (2, -1)] = true ∧ Mem.wf [] = true ∧
    Mem.wf [(0, 0)] = false ∧ Mem.wf [(1, 1), (0, 1)] = false := by decide

/-- Concrete states meet the invariant: every element at an end of a 64-bit `VAL`. -/
theorem witness_inv : State.Inv hardware64
    { mem := [(0, 1101), (1, 2), (2, 3), (3, max64), (9223372036854775807, min64)], pc := 0, rb := min64, inr := some max64,
      outq := [min64, max64], halted := false, fault := none } where
  memWf := by decide
  memLegal := by decide
  pcVal := by decide
  rbVal := by decide
  inrVal := by decide
  outqVal := by decide
  oneEnd := by decide

/-- A running state of this hardware that meets the invariant, for `StepKeepsTheInvariant`. -/
theorem witness_inv_hardware : State.Inv hardware (at_ [1, 0, 0, 0, 99] none 0 (-3)) where
  memWf := by decide
  memLegal := by decide
  pcVal := by decide
  rbVal := by decide
  inrVal := by decide
  outqVal := by decide
  oneEnd := by decide

/-- The step of that state, and of the 64-bit one: a write at `ADDR_MAX`. -/
theorem witness_WriteChangesItsCellAlone :
    Mem.wf [(0, 5)] = true ∧ hardware64.legal = true ∧
    transition hardware64
      { mem := [(0, 1101), (1, 2), (2, 3), (3, max64), (9223372036854775807, min64)], pc := 0, rb := min64,
        inr := some max64, outq := [min64, max64], halted := false, fault := none } =
      .ok { write := some (9223372036854775807, 5), nextPc := 4 } ∧
    after (at_ [1, 0, 0, 0, 99] none 0 (-3)) = some (at_ [2, 0, 0, 0, 99] none 4 (-3)) := by decide

/-- S4: a write through `[RB+1]` at `RB = -1`, read back at another base. -/
theorem witness_RelativeWriteReadRoundTrip : Mem.wf (at_ [] none 0 (-1)).mem = true ∧
    effectOf hardware (.add (.immediate 20) (.immediate 22) (.relative 1)) (at_ [] none 0 (-1)) =
      .ok { write := some (0, 42), nextPc := 4 } ∧ (5 : Int) + -5 = 1 + (at_ [] none 0 (-1)).rb := by decide

/-- V-H5: the `ADD` writes the cell the next fetch reads. -/
theorem witness_StoreIsSeenByTheNextFetch : Mem.wf (at_ [1101, 50, 49, 4] none 0 0).mem = true ∧
    transition hardware (at_ [1101, 50, 49, 4] none 0 0) = .ok { write := some (4, 99), nextPc := 4 } ∧
    legalAddr hardware 4 = true := by decide

theorem witness_StepNeverTakesBack : { at_ [99] none 0 0 with halted := true }.halted = true ∧
    (raise (.inputUnset 3) (at_ [3] none 0 0)).fault = some (.inputUnset 3) := by decide

theorem witness_EachElementHasItsOwnWriters :
    (stepCommand hardware (at_ [109, 1] none 0 0)).1.rb ≠ 0 ∧ (stepCommand hardware (at_ [104, 1] none 0 0)).1.outq ≠ [] ∧
    (stepCommand hardware (at_ [99] none 0 0)).1.halted ≠ false ∧
    (stepCommand hardware (at_ [1, 0, 0, 0] none 0 0)).1.mem ≠ (at_ [1, 0, 0, 0] none 0 0).mem := by decide

theorem witness_HaltedIsTerminal : { at_ [99] none 0 0 with halted := true }.halted = true ∧
    (Command.run 3).constructs = false ∧ (Command.writeInput 3).executes = false ∧
    (Command.writeInput 3).constructs = false := by decide

theorem witness_FaultIsSticky :
    (raise (.invalidAddress (-1)) (at_ [] none (-1) 0)).fault = some (.invalidAddress (-1)) := by decide

theorem witness_RaiseChangesFaultAlone : running (at_ [3, 0] none 0 0) = true ∧
    transition hardware (at_ [3, 0] none 0 0) = .error (.inputUnset 3) := by decide

/-- S5 and V-R2. -/
theorem witness_RunUntilOutputReturnsTheNewElement :
    OutputReturns hardware (at_ [104, 1, 99] none 0 0) { at_ [104, 1, 99] none 2 0 with outq := [1] } (.output 1) ∧
    OutputReturns hardware (at_ [5000] none 0 0) (raise (.unknownOpcode 5000) (at_ [5000] none 0 0))
      (.faulted (.unknownOpcode 5000)) :=
  ⟨⟨1, by decide⟩, ⟨1, by decide⟩⟩

theorem witness_HaltWithoutOutputIsDistinct :
    OutputReturns hardware (at_ [99] none 0 0) { at_ [99] none 0 0 with halted := true } .haltedNoOutput ∧
    { at_ [99] none 0 0 with halted := true }.outq = (at_ [99] none 0 0).outq ∧
    { at_ [99] none 0 0 with halted := true }.fault = none ∧ { at_ [99] none 0 0 with halted := true }.halted = true :=
  ⟨⟨1, by decide⟩, by decide, by decide, by decide⟩

/-- Both loops in progress, at fuel 0 and at fuel 1, and a command that returned. -/
theorem witness_ControllerHasNoMoveInsideALoop :
    run hardware 0 (at_ [99] none 0 0) = (at_ [99] none 0 0, none) ∧
    run hardware 1 (at_ [109, 5, 99] none 0 0) = (at_ [109, 5, 99] none 2 5, none) ∧
    runUntilOutput hardware 0 (at_ [99] none 0 0) = (at_ [99] none 0 0, none) ∧
    runUntilOutput hardware 1 (at_ [109, 5, 99] none 0 0) = (at_ [109, 5, 99] none 2 5, none) ∧
    command hardware (.run 1) (at_ [99] none 0 0) =
      ({ at_ [99] none 0 0 with halted := true }, .runReturned (some .halted)) ∧
    (Response.runReturned (some .halted)).returned = true := by decide

/-- For the two statements on `run` alone: both ends. -/
theorem witness_RunReturns :
    RunReturns hardware (at_ [99] none 0 0) { at_ [99] none 0 0 with halted := true } .halted ∧
    RunReturns hardware (at_ [5000] none 0 0) (raise (.unknownOpcode 5000) (at_ [5000] none 0 0))
      (.faulted (.unknownOpcode 5000)) :=
  ⟨⟨1, by decide⟩, ⟨1, by decide⟩⟩

/-- Both sides of the equivalence, with one output on the way. -/
theorem witness_RunIsRepeatedRunUntilOutput :
    RunReturns hardware (at_ [104, 1, 99] none 0 0) { at_ [104, 1, 99] none 2 0 with outq := [1], halted := true }
      .halted ∧
    OutputSession hardware [1] (at_ [104, 1, 99] none 0 0)
      { at_ [104, 1, 99] none 2 0 with outq := [1], halted := true } (asOutputResult .halted) :=
  ⟨⟨2, by decide⟩, ⟨{ at_ [104, 1, 99] none 2 0 with outq := [1] }, ⟨1, by decide⟩, ⟨1, by decide⟩, fun _ h => by cases h⟩⟩

theorem witness_ConstructSetsEveryElement : (0 : Nat) < [99].length ∧ [99].length ≤ 1 := by decide

/-- Accepted at the ends of `VAL`; refused for an element or an input one past the end. -/
theorem witness_ConstructHappensOrIsRefused :
    ((∀ v ∈ [max64] ++ (some min64).toList, inVal hardware64 v = true) ∧ imageFits hardware64 [max64] = true) ∧
    (∃ v ∈ [max64 + 1] ++ (none : Option Int).toList, inVal hardware64 v = false) ∧
    (∃ v ∈ [] ++ (some (min64 - 1)).toList, inVal hardware64 v = false) := by decide

/-- An image of `ADDR_MAX + 2` cells does not fit. -/
theorem witness_image_too_long : imageFits hardware64 (List.replicate 9223372036854775809 0) = false := by
  unfold imageFits
  rw [List.length_replicate]
  decide

theorem witness_WriteInputSetsInrAlone : inVal hardware64 max64 = true ∧ inVal hardware64 (max64 + 1) = false := by decide

theorem witness_ControllerReadsWithoutChanging : Command.outputs.executes = false ∧ Command.outputs.constructs = false ∧
    legalAddr hardware 0 = true ∧ legalAddr hardware64 max64 = true := by decide

end Sys2Proof.Tests
end

section
/-! PROOFS of the family `20_memory.md`: what each action writes, and O39. -/

namespace Sys2Proof.Machine

/-! ## Inversion of the actions that are not a shared course -/

/-- Everything `IN` can do when it answers. -/
theorem inEffect_ok {P : Params} {d : OutOperand} {s : State} {e : Effect} (h : inEffect P d s = .ok e) :
    ∃ v, s.inr = some v ∧ inVal P (s.pc + opcodeLength .inp) = true ∧ outLegal P s d = true ∧
      e = { write := some ((outAddr s d).toNat, v), nextPc := s.pc + opcodeLength .inp } := by
  simp only [inEffect, except_bind_ok, fetchOut_ok, advance, checkedVal_ok, pure, Except.pure,
    Except.ok.injEq] at h
  obtain ⟨c, ⟨-, hd, rfl⟩, v, hv, n, ⟨hn, rfl⟩, rfl⟩ := h
  refine ⟨v, ?_, hn, hd, rfl⟩
  unfold readInput at hv
  split at hv
  · cases hv; assumption
  · cases hv

/-- Everything `OUT` can do when it answers. -/
theorem outEffect_ok {P : Params} {a : InOperand} {s : State} {e : Effect} (h : outEffect P a s = .ok e) :
    inLegal P s a = true ∧ inVal P (s.pc + opcodeLength .out) = true ∧
      e = { output := some (inValue s a), nextPc := s.pc + opcodeLength .out } := by
  simp only [outEffect, except_bind_ok, fetchIn_ok, advance, checkedVal_ok, pure, Except.pure,
    Except.ok.injEq] at h
  obtain ⟨x, ⟨-, ha, rfl⟩, n, ⟨hn, rfl⟩, rfl⟩ := h
  exact ⟨ha, hn, rfl⟩

/-- Everything `ARB` can do when it answers. -/
theorem arbEffect_ok {P : Params} {a : InOperand} {s : State} {e : Effect} (h : arbEffect P a s = .ok e) :
    inLegal P s a = true ∧ inVal P (s.rb + inValue s a) = true ∧ inVal P (s.pc + opcodeLength .arb) = true ∧
      e = { newRb := some (s.rb + inValue s a), nextPc := s.pc + opcodeLength .arb } := by
  simp only [arbEffect, except_bind_ok, fetchIn_ok, advance, checkedVal_ok, pure, Except.pure,
    Except.ok.injEq] at h
  obtain ⟨x, ⟨-, ha, rfl⟩, b, ⟨hb, rfl⟩, n, ⟨hn, rfl⟩, rfl⟩ := h
  exact ⟨ha, hb, hn, rfl⟩

/-- A step that answers has fetched an instruction and performed its action. -/
theorem transition_ok {P : Params} {s : State} {e : Effect} :
    transition P s = .ok e ↔ ∃ i, fetchInstr P s = .ok i ∧ effectOf P i s = .ok e :=
  except_bind_ok

/-! ## What an action writes is a legal cell (R64, R131) -/

theorem cellLegal_iff {P : Params} {a : Nat} {v : Int} :
    cellLegal P (a, v) = true ↔ legalAddr P a = true ∧ inVal P v = true := by
  simp [cellLegal]

/-- The cell of an OUT operand that passed its check is at a legal address. -/
theorem legalAddr_toNat_outAddr {P : Params} {s : State} {d : OutOperand} (h : outLegal P s d = true) :
    legalAddr P (outAddr s d).toNat = true := by
  rw [Int.toNat_of_nonneg (nonneg_of_legalAddr h)]
  exact h

theorem effectF3_write_legal {P : Params} {op : Opcode} {f : Int → Int → Int} {a b : InOperand} {d : OutOperand}
    {s : State} {e : Effect} (h : effectF3 P op f a b d s = .ok e) : e.write.all (cellLegal P) = true := by
  obtain ⟨hv, -, hd, rfl⟩ := effectF3_ok h
  exact cellLegal_iff.mpr ⟨legalAddr_toNat_outAddr hd, hv⟩

/-- `IN` does not check the value it writes: it is legal because `INR` holds one (R208). -/
theorem inEffect_write_legal {P : Params} {d : OutOperand} {s : State} {e : Effect}
    (hinr : s.inr.all (inVal P) = true) (h : inEffect P d s = .ok e) : e.write.all (cellLegal P) = true := by
  obtain ⟨v, hv, -, hd, rfl⟩ := inEffect_ok h
  rw [hv] at hinr
  exact cellLegal_iff.mpr ⟨legalAddr_toNat_outAddr hd, hinr⟩

theorem effectJump_write_none {P : Params} {op : Opcode} {taken : Int → Bool} {a t : InOperand} {s : State}
    {e : Effect} (h : effectJump P op taken a t s = .ok e) : e.write = none := by
  obtain ⟨-, rfl⟩ | ⟨-, -, rfl⟩ := effectJump_ok h <;> rfl

theorem effectOf_write_legal {P : Params} {i : Instr} {s : State} {e : Effect}
    (hinr : s.inr.all (inVal P) = true) (h : effectOf P i s = .ok e) : e.write.all (cellLegal P) = true := by
  cases i with
  | add | mul | lt | eq => exact effectF3_write_legal h
  | inp => exact inEffect_write_legal hinr h
  | jnz | jz => rw [effectJump_write_none h]; rfl
  | out => obtain ⟨-, -, rfl⟩ := outEffect_ok h; rfl
  | arb => obtain ⟨-, -, -, rfl⟩ := arbEffect_ok h; rfl
  | hlt => cases h; rfl

/-- Of the invariant, a step's write needs the pending input alone; every other value is checked (R131, R225). -/
theorem transition_write_legal {P : Params} {s : State} {e : Effect}
    (hinr : s.inr.all (inVal P) = true) (h : transition P s = .ok e) : e.write.all (cellLegal P) = true := by
  obtain ⟨i, -, he⟩ := transition_ok.mp h
  exact effectOf_write_legal hinr he

/-- Settles O39: the first half is the read-after-write law; the second follows from the checks of R131 and R225, and
for `IN` from the invariant on `INR`. -/
theorem writeChangesItsCellAlone : Obligations.WriteChangesItsCellAlone := by
  refine ⟨fun m a v hm => ⟨read_write_same hm a v, fun b hb => read_write_other m v hb⟩, ?_⟩
  intro P s e a v _ hinv he hw
  have hlegal := transition_write_legal hinv.inrVal he
  rw [hw] at hlegal
  exact cellLegal_iff.mp hlegal

end Sys2Proof.Machine
end

section
/-! PROOFS of the family `30_encoding.md`: when the decoder accepts and what it rejects with, and O10, O11. -/

namespace Sys2Proof.Machine

/-! ## The mode check of each format (R93, R102, R125) -/

@[simp] theorem modeLegal_inModeDigit (o : InOperand) : modeLegal .input (inModeDigit o) = true := by
  cases o <;> rfl

@[simp] theorem modeLegal_outModeDigit (o : OutOperand) : modeLegal .output (outModeDigit o) = true := by
  cases o <;> rfl

/-- A digit that R102 calls illegal for its role fails the mode check. -/
theorem modeLegal_eq_false {r : Role} {mode : Int} (h0 : mode ≠ 0) (h2 : mode ≠ 2) (h1 : r = .input → mode ≠ 1) :
    modeLegal r mode = false := by
  cases r with
  | input => simp [modeLegal, h0, h1 rfl, h2]
  | output => simp [modeLegal, h0, h2]

/-- The loop of R125 looks at every parameter: it passes only where each digit is legal for its role. -/
theorem modeLegal_of_refModesLegal {P : Params} {cell : Int} {roles : List Role} {n k : Nat} {r : Role}
    (h : refModesLegal P cell n roles = true) (hr : roles[k]? = some r) :
    modeLegal r (modeField P (n + k) cell) = true := by
  induction roles generalizing n k with
  | nil => cases hr
  | cons r₀ roles ih =>
    obtain ⟨hhead, htail⟩ := Bool.and_eq_true_iff.mp h
    cases k with
    | zero => cases hr; exact hhead
    | succ k =>
      rw [← Nat.succ_add_eq_add_succ]
      exact ih htail hr

/-- Format `F3` accepts exactly two IN operands and an OUT operand that spell the mode digits. -/
theorem decodeF3_ok {P : Params} {mk : InOperand → InOperand → OutOperand → Instr} {cell p1 p2 p3 : Int} {i : Instr} :
    decodeF3 P mk cell p1 p2 p3 = .ok i ↔
      ∃ a, (modeField P 1 cell = inModeDigit a ∧ p1 = a.raw) ∧ ∃ b, (modeField P 2 cell = inModeDigit b ∧ p2 = b.raw) ∧
        ∃ d, (modeField P 3 cell = outModeDigit d ∧ p3 = d.raw) ∧ checkUnused P 3 cell = .ok () ∧ mk a b d = i := by
  simp [decodeF3, except_bind_ok, inOperand_ok, outOperand_ok, pure, Except.pure, Unique.exists_iff]

/-- Format `F2` accepts exactly two IN operands that spell the mode digits. -/
theorem decodeF2_ok {P : Params} {mk : InOperand → InOperand → Instr} {cell p1 p2 : Int} {i : Instr} :
    decodeF2 P mk cell p1 p2 = .ok i ↔
      ∃ a, (modeField P 1 cell = inModeDigit a ∧ p1 = a.raw) ∧ ∃ b, (modeField P 2 cell = inModeDigit b ∧ p2 = b.raw) ∧
        checkUnused P 2 cell = .ok () ∧ mk a b = i := by
  simp [decodeF2, except_bind_ok, inOperand_ok, pure, Except.pure, Unique.exists_iff]

/-- Format `F1I` accepts exactly an IN operand that spells the mode digit. -/
theorem decodeF1I_ok {P : Params} {mk : InOperand → Instr} {cell p1 : Int} {i : Instr} :
    decodeF1I P mk cell p1 = .ok i ↔
      ∃ a, (modeField P 1 cell = inModeDigit a ∧ p1 = a.raw) ∧ checkUnused P 1 cell = .ok () ∧ mk a = i := by
  simp [decodeF1I, except_bind_ok, inOperand_ok, pure, Except.pure, Unique.exists_iff]

/-- Format `F1O` accepts exactly an OUT operand that spells the mode digit. -/
theorem decodeF1O_ok {P : Params} {mk : OutOperand → Instr} {cell p1 : Int} {i : Instr} :
    decodeF1O P mk cell p1 = .ok i ↔
      ∃ d, (modeField P 1 cell = outModeDigit d ∧ p1 = d.raw) ∧ checkUnused P 1 cell = .ok () ∧ mk d = i := by
  simp [decodeF1O, except_bind_ok, outOperand_ok, pure, Except.pure, Unique.exists_iff]

/-- A cell whose operands decode has passed the mode check over the shape of its opcode. -/
theorem refModesLegal_of_decodeOperands_ok {P : Params} {op : Opcode} {cell p1 p2 p3 : Int} {i : Instr}
    (h : decodeOperands P op cell p1 p2 p3 = .ok i) : refModesLegal P cell 1 (opcodeShape op) = true := by
  cases op with
  | add | mul | lt | eq =>
    obtain ⟨a, ⟨ha, -⟩, b, ⟨hb, -⟩, d, ⟨hd, -⟩, -⟩ := decodeF3_ok.mp h
    simp [opcodeShape, refModesLegal, ha, hb, hd]
  | jnz | jz =>
    obtain ⟨a, ⟨ha, -⟩, b, ⟨hb, -⟩, -⟩ := decodeF2_ok.mp h
    simp [opcodeShape, refModesLegal, ha, hb]
  | out | arb =>
    obtain ⟨a, ⟨ha, -⟩, -⟩ := decodeF1I_ok.mp h
    simp [opcodeShape, refModesLegal, ha]
  | inp =>
    obtain ⟨d, ⟨hd, -⟩, -⟩ := decodeF1O_ok.mp h
    simp [opcodeShape, refModesLegal, hd]
  | hlt => rfl

/-! ## What the decoder rejects with (R124, R125, R220) -/

/-- A sequence whose two parts can fail only with `e` can fail only with `e`. -/
theorem except_bind_error_unique {ε α β : Type} {x : Except ε α} {f : α → Except ε β} {e : ε}
    (hx : ∀ r, x = .error r → r = e) (hf : ∀ a r, f a = .error r → r = e) : ∀ r, (x >>= f) = .error r → r = e := by
  intro r h
  obtain h | ⟨a, -, h⟩ := except_bind_error.mp h
  · exact hx r h
  · exact hf a r h

theorem inOperand_error_unique (cell mode raw : Int) :
    ∀ r, inOperand cell mode raw = .error r → r = .invalidAddressingMode cell :=
  fun _ h => (inOperand_error.mp h).2

theorem outOperand_error_unique (cell mode raw : Int) :
    ∀ r, outOperand cell mode raw = .error r → r = .invalidAddressingMode cell :=
  fun _ h => (outOperand_error.mp h).2

/-- The check of the unused digits is the last part of every format; what follows it cannot fail. -/
theorem checkUnused_error_unique (P : Params) (n : Nat) (cell : Int) (i : Instr) :
    ∀ r, (checkUnused P n cell >>= fun _ => pure i) = .error r → r = .invalidAddressingMode cell := by
  refine except_bind_error_unique (fun r h => ?_) (fun _ _ h => nomatch h)
  unfold checkUnused at h
  split at h
  · cases h
  · split at h <;> cases h
    rfl

/-- The mode check of a known opcode rejects with `InvalidAddressingMode` alone. -/
theorem decodeOperands_error {P : Params} {op : Opcode} {cell p1 p2 p3 : Int} {r : Reject}
    (h : decodeOperands P op cell p1 p2 p3 = .error r) : r = .invalidAddressingMode cell := by
  have hin := inOperand_error_unique cell
  have hout := outOperand_error_unique cell
  have hend := fun n => checkUnused_error_unique P n cell
  cases op with
  | add | mul | lt | eq =>
    exact except_bind_error_unique (hin _ _) (fun _ => except_bind_error_unique (hin _ _) fun _ =>
      except_bind_error_unique (hout _ _) fun _ => hend 3 _) r h
  | jnz | jz =>
    exact except_bind_error_unique (hin _ _) (fun _ => except_bind_error_unique (hin _ _) fun _ => hend 2 _) r h
  | out | arb => exact except_bind_error_unique (hin _ _) (fun _ => hend 1 _) r h
  | inp => exact except_bind_error_unique (hout _ _) (fun _ => hend 1 _) r h
  | hlt => exact hend 0 _ r h

theorem decodeOperands_of_not_refModesLegal {P : Params} {op : Opcode} {cell p1 p2 p3 : Int}
    (h : refModesLegal P cell 1 (opcodeShape op) ≠ true) :
    decodeOperands P op cell p1 p2 p3 = .error (.invalidAddressingMode cell) := by
  cases hd : decodeOperands P op cell p1 p2 p3 with
  | ok i => exact absurd (refModesLegal_of_decodeOperands_ok hd) h
  | error r => rw [decodeOperands_error hd]

/-- A number that is none of the table's finds no opcode (R101). -/
theorem lookup_eq_none {number : Int} (h : number ∉ [1, 2, 3, 4, 5, 6, 7, 8, 9, 99]) : lookup number = none := by
  cases hl : lookup number with
  | none => rfl
  | some op =>
    refine absurd ?_ h
    rw [lookup_eq_some.mp hl]
    cases op <;> decide

theorem decode_of_lookup_none {P : Params} {cell p1 p2 p3 : Int} (h : lookup (opcodeField P cell) = none) :
    decode P cell p1 p2 p3 = .error (.unknownOpcode cell) := by
  simp only [decode, h]

theorem decode_of_opcodeField {P : Params} {op : Opcode} {cell p1 p2 p3 : Int}
    (h : opcodeField P cell = opcodeNumber op) : decode P cell p1 p2 p3 = decodeOperands P op cell p1 p2 p3 := by
  simp only [decode, h, lookup_opcodeNumber]

/-! ## A step that rejects its cell -/

/-- A running state whose transition fails takes that fault and does nothing else (R121, R229). -/
theorem stepCommand_of_transition_error {P : Params} {s : State} {f : Fault} (hr : running s = true)
    (h : transition P s = .error f) : stepCommand P s = (raise f s, .faulted f) := by
  obtain ⟨hfault, hhalted⟩ := (running_iff s).mp hr
  simp [stepCommand, hfault, hhalted, h]

/-- A running state at a legal `PC` whose cell is no instruction takes the fault of the reject (R124, R125). -/
theorem stepCommand_of_reject {P : Params} {s : State} {r : Reject} (hr : running s = true)
    (hpc : legalAddr P s.pc = true) (h : decodeAtPc P s = .error r) :
    stepCommand P s = (raise (rejectFault r) s, .faulted (rejectFault r)) :=
  stepCommand_of_transition_error hr
    (except_bind_error.mpr (.inl (fetchInstr_error.mpr (.inr ⟨hpc, r, h, rfl⟩))))

/-- Settles O10: the lookup finds nothing, so the decoder rejects the cell before it looks at any mode digit. -/
theorem undefinedOpcodeFaults : Obligations.UndefinedOpcodeFaults := by
  refine ⟨fun P s hr hpc hop => ?_, by decide⟩
  exact stepCommand_of_reject hr hpc (decode_of_lookup_none (lookup_eq_none hop))

/-- Settles O11: the digit fails the mode check of R125, and that check rejects with `InvalidAddressingMode` alone. -/
theorem illegalModeDigitFaults : Obligations.IllegalModeDigitFaults := by
  intro P s op k r hr hpc hop hrole ⟨h0, h2, h1⟩
  have hmode : refModesLegal P (cellAtPc s) 1 (opcodeShape op) ≠ true := by
    intro hlegal
    have hk := modeLegal_of_refModesLegal hlegal hrole
    rw [Nat.add_comm] at hk
    rw [modeLegal_eq_false h0 h2 h1] at hk
    cases hk
  exact stepCommand_of_reject hr hpc
    ((decode_of_opcodeField hop).trans (decodeOperands_of_not_refModesLegal hmode))

end Sys2Proof.Machine
end

section
/-! PROOFS of the family `40_step_pipeline.md`: what a completed step has committed, and O18, O16. -/

namespace Sys2Proof.Machine

/-! ## A completed step (R121, R133) -/

/-- A step that completes has committed the effect of the instruction it fetched. -/
theorem stepCommand_stepped {P : Params} {s t : State} {i : Instr} (hi : fetchInstr P s = .ok i)
    (h : stepCommand P s = (t, .stepped)) : ∃ e, effectOf P i s = .ok e ∧ t = commit e s := by
  obtain ⟨f, -, hs⟩ | ⟨-, -, hs⟩ | ⟨-, j, e, hj, he, hs⟩ | ⟨-, f, -, hs⟩ := stepCommand_cases P s
  case inr.inr.inl =>
    cases hi.symm.trans hj
    cases h.symm.trans hs
    exact ⟨e, he, rfl⟩
  all_goals cases h.symm.trans hs

/-! ## The next `PC` of an action that manages it itself (R135) -/

theorem effectJump_nextPc {P : Params} {op : Opcode} {taken : Int → Bool} {a t : InOperand} {s : State} {e : Effect}
    (h : effectJump P op taken a t s = .ok e) :
    e.nextPc = if taken (inValue s a) = true then inValue s t else s.pc + opcodeLength op := by
  obtain ⟨htaken, rfl⟩ | ⟨hnot, -, rfl⟩ := effectJump_ok h
  · rw [if_pos htaken]
  · rw [if_neg (Bool.eq_false_iff.mp hnot)]

theorem jnzEffect_nextPc {P : Params} {a t : InOperand} {s : State} {e : Effect} (h : jnzEffect P a t s = .ok e) :
    e.nextPc = if inValue s a ≠ 0 then inValue s t else s.pc + 3 := by
  rw [effectJump_nextPc h]
  simp [isZero, opcodeLength, opcodeShape]

theorem jzEffect_nextPc {P : Params} {a t : InOperand} {s : State} {e : Effect} (h : jzEffect P a t s = .ok e) :
    e.nextPc = if inValue s a = 0 then inValue s t else s.pc + 3 := by
  rw [effectJump_nextPc h]
  simp [isZero, opcodeLength, opcodeShape]

/-- Settles O18: a completed step commits the action's next `PC`, which for a jump follows its test and for `HLT` is the
`PC` itself; the program of one 99 is run. -/
theorem jumpsAndHltManageThePc : Obligations.JumpsAndHltManageThePc := by
  refine ⟨fun P s t i hi hs => ?_, by decide⟩
  obtain ⟨e, he, rfl⟩ := stepCommand_stepped hi hs
  rw [commit_pc]
  refine ⟨?_, ?_, ?_⟩
  · rintro a g rfl
    exact jnzEffect_nextPc he
  · rintro a g rfl
    exact jzEffect_nextPc he
  · rintro rfl
    cases he
    rfl

/-! ## Operand forms (R127 to R131) -/

/-- An IN operand with an address is its cell when the address is legal, else the fault that names the address. -/
theorem resolveIn_of_inAddr {P : Params} {s : State} {o : InOperand} {a : Int} (h : inAddr s o = some a) :
    resolveIn P s o =
      if legalAddr P a then .ok (Mem.read s.mem a.toNat) else .error (.invalidAddress a) := by
  cases o with
  | position | relative => cases h; rfl
  | immediate => cases h

/-- Settles O16: each form follows from the address it names; an immediate operand names none (R129). -/
theorem operandsResolveByTheirMode : Obligations.OperandsResolveByTheirMode := by
  intro P s p
  have hposition : inAddr s (.position p) = some p := rfl
  have hrelative : inAddr s (.relative p) = some (p + s.rb) := rfl
  exact ⟨resolveIn_of_inAddr hposition, resolveIn_of_inAddr hrelative, rfl, rfl, rfl⟩

end Sys2Proof.Machine
end

section
/-! PROOFS of the family `45_relbase.md`: what is read back at the address an OUT operand named, and O40. -/

namespace Sys2Proof.Machine

/-! ## The cell a storing action writes (R130) -/

theorem effectF3_write {P : Params} {op : Opcode} {f : Int → Int → Int} {a b : InOperand} {d : OutOperand}
    {s : State} {e : Effect} (h : effectF3 P op f a b d s = .ok e) :
    ∃ v, e.write = some ((outAddr s d).toNat, v) := by
  obtain ⟨-, -, -, rfl⟩ := effectF3_ok h
  exact ⟨_, rfl⟩

theorem inEffect_write {P : Params} {d : OutOperand} {s : State} {e : Effect} (h : inEffect P d s = .ok e) :
    ∃ v, e.write = some ((outAddr s d).toNat, v) := by
  obtain ⟨v, -, -, -, rfl⟩ := inEffect_ok h
  exact ⟨v, rfl⟩

/-! ## Reading it back (R64, R128) -/

/-- What a commit wrote at an address, a relative IN operand that names the address under the base of its own time
reads. -/
theorem inValue_relative_commit {s : State} {e : Effect} {x v q base : Int} (hm : Mem.wf s.mem = true)
    (hw : e.write = some (x.toNat, v)) (hx : q + base = x) :
    inValue { commit e s with rb := base } (.relative q) = v := by
  subst hx
  calc inValue { commit e s with rb := base } (.relative q)
      = Mem.read (writeMem s.mem e.write) (q + base).toNat := rfl
    _ = Mem.read (Mem.write s.mem (q + base).toNat v) (q + base).toNat := by rw [hw, writeMem_some]
    _ = v := read_write_same hm _ v

/-- Settles O40: each of the five instructions writes the cell its OUT operand names, and a later relative operand
depends on its own base only through the address it names. -/
theorem relativeWriteReadRoundTrip : Obligations.RelativeWriteReadRoundTrip := by
  intro s a b p i e hm hi he
  have hwrite : ∃ v, e.write = some ((outAddr s (.relative p)).toNat, v) := by
    simp only [List.mem_cons, List.not_mem_nil, or_false] at hi
    obtain rfl | rfl | rfl | rfl | rfl := hi
    case inr.inr.inr.inr => exact inEffect_write he
    all_goals exact effectF3_write he
  obtain ⟨v, hv⟩ := hwrite
  exact ⟨v, hv, fun q base hq => inValue_relative_commit hm hv hq⟩

end Sys2Proof.Machine
end

section
/-! PROOFS of the family `46_halt.md`: what `HLT` does, what a halted machine does not do, and O48, O28. -/

namespace Sys2Proof.Machine

/-! ## A machine that is not running stands still (R196, R203) -/

theorem not_running_of_halted {s : State} (h : s.halted = true) : running s = false := by
  simp [running, h]

theorem stepCommand_of_not_running {P : Params} {s : State} (h : running s = false) : (stepCommand P s).1 = s := by
  obtain ⟨f, -, hs⟩ | ⟨-, -, hs⟩ | ⟨hr, -⟩ | ⟨hr, -⟩ := stepCommand_cases P s
  · rw [hs]
  · rw [hs]
  all_goals exact absurd (hr.symm.trans h) (by decide)

/-- `run` goes on exactly in a running state (R201, R203). -/
theorem runExit_eq_none (s : State) : runExit s = none ↔ running s = true := by
  rw [running_iff]
  cases hf : s.fault <;> cases hh : s.halted <;> simp [runExit, hf, hh]

theorem run_of_not_running {P : Params} {s : State} (h : running s = false) (fuel : Nat) : (run P fuel s).1 = s := by
  cases fuel with
  | zero => rfl
  | succ fuel =>
    cases hx : runExit s with
    | some r => simp only [run, hx]
    | none => exact absurd (((runExit_eq_none s).mp hx).symm.trans h) (by decide)

theorem runUntilOutput_of_not_running {P : Params} {s : State} (h : running s = false) (fuel : Nat) :
    (runUntilOutput P fuel s).1 = s := by
  cases hf : s.fault with
  | some f => simp only [runUntilOutput, hf]
  | none =>
    have hh : s.halted = true := by simpa [running, hf] using h
    simp only [runUntilOutput, hf, hh, if_true]

/-! ## Commands and `HALTED` (R34, R196) -/

/-- An executing command leaves a machine that is not running as it is. -/
theorem command_of_not_running {P : Params} {c : Command} {s : State} (hc : c.executes = true)
    (h : running s = false) : (command P c s).1 = s := by
  cases c with
  | step => exact stepCommand_of_not_running h
  | run fuel => exact run_of_not_running h fuel
  | runUntilOutput fuel => exact runUntilOutput_of_not_running h fuel
  | construct | writeInput | outputs | halted | fault | peek | pc | rb => cases hc

/-- `write_input` that happens sets `INR`, and one that is refused sets nothing (R208). -/
theorem portAnswer_writeInput_halted (P : Params) (v : Int) (s : State) :
    (portAnswer s (writeInput P v s)).1.halted = s.halted := by
  unfold writeInput
  split <;> rfl

theorem command_peek (P : Params) (a : Int) (s : State) : (command P (.peek a) s).1 = s := by
  cases h : peek P s a <;> simp only [command, h]

/-- A command that neither executes nor constructs has no access to `HALTED`. -/
theorem command_halted_of_not_executes {P : Params} {c : Command} {s : State} (he : c.executes = false)
    (hc : c.constructs = false) : (command P c s).1.halted = s.halted := by
  cases c with
  | construct => cases hc
  | step | run | runUntilOutput => cases he
  | writeInput v => exact portAnswer_writeInput_halted P v s
  | peek a => rw [command_peek]
  | outputs | halted | fault | pc | rb => rfl

/-- Settles O48: a halted machine is not running, so the executing commands leave it as it is; of the others only
`construct` writes `HALTED`. -/
theorem haltedIsTerminal : Obligations.HaltedIsTerminal := by
  intro P s
  refine ⟨fun hs => ?_, fun c hc hs => ?_, fun c he hc => command_halted_of_not_executes he hc, fun _ _ => rfl⟩
  · have hr := not_running_of_halted hs
    exact ⟨stepCommand_of_not_running hr,
      fun fuel => ⟨run_of_not_running hr fuel, runUntilOutput_of_not_running hr fuel⟩⟩
  · cases he : c.executes with
    | true => rw [command_of_not_running he (not_running_of_halted hs), hs]
    | false => rw [command_halted_of_not_executes he hc, hs]

/-! ## The cells that are a `HLT` (R92, R103) -/

theorem opcodeField_floored {P : Params} (h : P.decodeMod = .floored) (cell : Int) :
    opcodeField P cell = fmod cell 100 := by
  simp only [opcodeField, remainder, h]

theorem opcodeField_truncated {P : Params} (h : P.decodeMod = .truncated) (cell : Int) :
    opcodeField P cell = tmod cell 100 := by
  simp only [opcodeField, remainder, h]

/-- Where both remainders agree on a cell, its opcode field does not depend on `DECODE_MOD`. -/
theorem opcodeField_eq_of_remainders {cell n : Int} (hf : fmod cell 100 = n) (ht : tmod cell 100 = n) (P : Params) :
    opcodeField P cell = n := by
  cases hd : P.decodeMod with
  | floored => rw [opcodeField_floored hd, hf]
  | truncated => rw [opcodeField_truncated hd, ht]

/-- With unused digits ignored, `HLT` has no digit that could be illegal. -/
theorem decode_hlt_of_ignore {P : Params} {cell p1 p2 p3 : Int} (hu : P.unusedDigits = .ignore)
    (hop : opcodeField P cell = 99) : decode P cell p1 p2 p3 = .ok .hlt := by
  have hcheck : checkUnused P 0 cell = .ok () := by simp only [checkUnused, hu]
  calc decode P cell p1 p2 p3
      = decodeOperands P .hlt cell p1 p2 p3 := decode_of_opcodeField hop
    _ = (checkUnused P 0 cell >>= fun _ => pure .hlt) := rfl
    _ = .ok .hlt := by rw [hcheck]; rfl

/-! ## The action and the step of `HLT` (R195) -/

theorem settle_hltEffect (s : State) : settle (hltEffect s) s = { s with halted := true } := by
  simp [hltEffect, commit]

/-- A running state whose transition answers commits it (R121, R133). -/
theorem stepCommand_of_transition_ok {P : Params} {s : State} {e : Effect} (hr : running s = true)
    (h : transition P s = .ok e) : stepCommand P s = (commit e s, .stepped) := by
  obtain ⟨hfault, hhalted⟩ := (running_iff s).mp hr
  simp [stepCommand, hfault, hhalted, h]

theorem stepCommand_of_fetchInstr_hlt {P : Params} {s : State} (hr : running s = true)
    (h : fetchInstr P s = .ok .hlt) : stepCommand P s = ({ s with halted := true }, .stepped) := by
  rw [stepCommand_of_transition_ok hr (transition_ok.mpr ⟨.hlt, h, rfl⟩), ← settle_hltEffect]
  rfl

/-- A running state at an illegal `PC` faults in the fetch, whatever its cell is (R122). -/
theorem stepCommand_of_illegal_pc {P : Params} {s : State} (hr : running s = true) (hpc : legalAddr P s.pc = false) :
    stepCommand P s = ({ s with fault := some (.invalidAddress s.pc) }, .faulted (.invalidAddress s.pc)) :=
  stepCommand_of_transition_error hr
    (except_bind_error.mpr (.inl (fetchInstr_error.mpr (.inl ⟨hpc, rfl⟩))))

/-- Settles O28: `HLT` has no parameter, so its action cannot fail and its cell decodes whatever its mode digits are;
only the fetch can fault. -/
theorem hltSetsHaltedAlone : Obligations.HltSetsHaltedAlone := by
  refine ⟨fun s => ?_, fun P cell p1 p2 p3 => decode_hlt_of_ignore,
    fun P => ⟨opcodeField_eq_of_remainders rfl rfl P, opcodeField_eq_of_remainders rfl rfl P⟩,
    fun P hd => opcodeField_floored hd (-1), fun P s hr hu hop => ?_⟩
  · exact (exec_eq_settle .hlt s).trans (congrArg _ (settle_hltEffect s))
  · cases hpc : legalAddr P s.pc with
    | true => exact stepCommand_of_fetchInstr_hlt hr (fetchInstr_ok.mpr ⟨hpc, decode_hlt_of_ignore hu hop⟩)
    | false => exact stepCommand_of_illegal_pc hr hpc

end Sys2Proof.Machine
end

section
/-! PROOFS of the family `47_run_control.md`: what `run_until_output` has done when it returns, and O52. -/

namespace Sys2Proof.Machine

/-! ## When the loop of R204 ends -/

theorem outputExit_commit_output {e : Effect} {s : State} {v : Int} (he : e.output = some v) :
    outputExit s.outq.length (commit e s) .stepped = some (.output v) := by
  simp [outputExit, he]

/-- After a step without an output only the halt ends the loop. -/
theorem outputExit_commit_silent {e : Effect} {s : State} (he : e.output = none) :
    outputExit s.outq.length (commit e s) .stepped =
      if (commit e s).halted then some .haltedNoOutput else none := by
  simp [outputExit, he]

theorem outputLoop_of_exit {P : Params} {len fuel : Nat} {s t : State} {q : StepResult} {r : OutputResult}
    (hs : stepCommand P s = (t, q)) (hx : outputExit len t q = some r) :
    outputLoop P len (fuel + 1) s = (t, some r) := by
  simp only [outputLoop, hs, hx]

theorem outputLoop_of_no_exit {P : Params} {len fuel : Nat} {s t : State} {q : StepResult}
    (hs : stepCommand P s = (t, q)) (hx : outputExit len t q = none) :
    outputLoop P len (fuel + 1) s = outputLoop P len fuel t := by
  simp only [outputLoop, hs, hx]

/-! ## The state a result of `run_until_output` reports (R204 to R206) -/

/-- The end state `t` bears out the result, for a call made when `OUTQ` was `outq`. -/
def Reports (outq : List Int) (t : State) : OutputResult → Prop
  | .output v => t.outq = outq ++ [v] ∧ t.fault = none
  | .haltedNoOutput => t.outq = outq ∧ t.Final
  | .faulted f => t.outq = outq ∧ t.fault = some f

/-- The loop goes on only after a step that neither faulted, nor appended, nor halted: so each of its steps begins
in a running state with the `OUTQ` of the call. -/
theorem outputLoop_reports {P : Params} {fuel : Nat} {s t : State} {r : OutputResult} (hr : running s = true)
    (h : outputLoop P s.outq.length fuel s = (t, some r)) : Reports s.outq t r := by
  induction fuel generalizing s with
  | zero => cases h
  | succ fuel ih =>
    cases ht : transition P s with
    | error f =>
      cases (outputLoop_of_exit (stepCommand_of_transition_error hr ht) rfl).symm.trans h
      exact ⟨rfl, rfl⟩
    | ok e =>
      have hs := stepCommand_of_transition_ok hr ht
      have hfault : (commit e s).fault = none := ((running_iff s).mp hr).1
      cases ho : e.output with
      | some v =>
        cases (outputLoop_of_exit hs (outputExit_commit_output ho)).symm.trans h
        exact ⟨by simp [ho], hfault⟩
      | none =>
        have hq : (commit e s).outq = s.outq := by simp [ho]
        have hx := outputExit_commit_silent (s := s) ho
        cases hh : (commit e s).halted with
        | true =>
          rw [hh, if_pos rfl] at hx
          cases (outputLoop_of_exit hs hx).symm.trans h
          exact ⟨hq, hh, hfault⟩
        | false =>
          rw [hh, if_neg (by decide)] at hx
          rw [outputLoop_of_no_exit hs hx, ← hq] at h
          rw [← hq]
          exact ih ((running_iff _).mpr ⟨hfault, hh⟩) h

theorem runUntilOutput_of_fault {P : Params} {s : State} {f : Fault} (hf : s.fault = some f) (fuel : Nat) :
    runUntilOutput P fuel s = (s, some (.faulted f)) := by
  simp only [runUntilOutput, hf]

theorem runUntilOutput_of_final {P : Params} {s : State} (hs : s.Final) (fuel : Nat) :
    runUntilOutput P fuel s = (s, some .haltedNoOutput) := by
  obtain ⟨hh, hf⟩ := hs
  simp only [runUntilOutput, hf, hh, if_true]

theorem runUntilOutput_of_running {P : Params} {s : State} (hr : running s = true) (fuel : Nat) :
    runUntilOutput P fuel s = outputLoop P s.outq.length fuel s := by
  obtain ⟨hf, hh⟩ := (running_iff s).mp hr
  simp [runUntilOutput, hf, hh]

/-- Everything `run_until_output` can have done when it returns. -/
theorem outputReturns_reports {P : Params} {s t : State} {r : OutputResult} (h : OutputReturns P s t r) :
    Reports s.outq t r := by
  obtain ⟨fuel, h⟩ := h
  cases hf : s.fault with
  | some f =>
    cases (runUntilOutput_of_fault hf fuel).symm.trans h
    exact ⟨rfl, hf⟩
  | none =>
    cases hh : s.halted with
    | true =>
      cases (runUntilOutput_of_final ⟨hh, hf⟩ fuel).symm.trans h
      exact ⟨rfl, hh, hf⟩
    | false =>
      have hr : running s = true := (running_iff s).mpr ⟨hf, hh⟩
      exact outputLoop_reports hr ((runUntilOutput_of_running hr fuel).symm.trans h)

/-- An end without a fault and without a new element is reported by `HaltedNoOutput` alone: an output would have
lengthened `OUTQ`, a fault would be recorded. -/
theorem eq_haltedNoOutput_of_reports {outq : List Int} {t : State} {r : OutputResult} (h : Reports outq t r)
    (hf : t.fault = none) (hq : t.outq = outq) : r = .haltedNoOutput := by
  cases r with
  | haltedNoOutput => rfl
  | output v =>
    obtain ⟨hout, -⟩ := h
    simp [hq] at hout
  | faulted f =>
    obtain ⟨-, hfault⟩ := h
    cases hf.symm.trans hfault

/-- Settles O52: the end state bears out what is returned, so with no fault and no new element only `HaltedNoOutput`
is left, and that result reports just this; a machine already halted never enters the loop. -/
theorem haltWithoutOutputIsDistinct : Obligations.HaltWithoutOutputIsDistinct :=
  fun _ _ => ⟨fun _ _ h _ hf hq => eq_haltedNoOutput_of_reports (outputReturns_reports h) hf hq,
    fun _ h => outputReturns_reports h,
    fun hf hh fuel => runUntilOutput_of_final ⟨hh, hf⟩ fuel,
    fun _ => nofun⟩

end Sys2Proof.Machine
end

section
/-! PROOFS of the family `60_exceptions.md`: how `run` goes on and how it ends at a recorded fault, and O50. -/

namespace Sys2Proof.Machine

/-! ## `run` at a recorded fault and in a running state (R201) -/

/-- A recorded fault ends `run` at once, also when no fuel is left. -/
theorem run_of_fault {P : Params} {s : State} {f : Fault} (hf : s.fault = some f) (fuel : Nat) :
    run P fuel s = (s, some (.faulted f)) := by
  have hx : runExit s = some (.faulted f) := by simp only [runExit, hf]
  cases fuel with
  | zero => simp only [run, hx]
  | succ fuel => simp only [run, hx]

/-- In a running state one unit of fuel pays for one step. -/
theorem run_succ_of_running {P : Params} {s : State} (hr : running s = true) (fuel : Nat) :
    run P (fuel + 1) s = run P fuel (stepCommand P s).1 := by
  simp only [run, (runExit_eq_none s).mpr hr]

/-! ## A raise through the three executing commands (R229) -/

theorem run_of_transition_error {P : Params} {s : State} {f : Fault} (hr : running s = true)
    (h : transition P s = .error f) (fuel : Nat) : run P (fuel + 1) s = (raise f s, some (.faulted f)) := by
  rw [run_succ_of_running hr, stepCommand_of_transition_error hr h]
  exact run_of_fault (raise_fault f s) fuel

theorem runUntilOutput_of_transition_error {P : Params} {s : State} {f : Fault} (hr : running s = true)
    (h : transition P s = .error f) (fuel : Nat) :
    runUntilOutput P (fuel + 1) s = (raise f s, some (.faulted f)) := by
  rw [runUntilOutput_of_running hr]
  exact outputLoop_of_exit (stepCommand_of_transition_error hr h) rfl

/-- Settles O50: the step takes the fault, `run` ends in the faulted state that step leaves, and `run_until_output`
ends on the step's own answer. -/
theorem raiseChangesFaultAlone : Obligations.RaiseChangesFaultAlone :=
  fun _ _ _ hr h => ⟨stepCommand_of_transition_error hr h, run_of_transition_error hr h,
    runUntilOutput_of_transition_error hr h⟩

end Sys2Proof.Machine
end

section
/-! PROOFS of the family `other`: the decoder and the encoder, the invariant, what each instruction does where it
completes and where it faults, the frames, the step against its pseudocode, and the controller's commands. -/

namespace Sys2Proof.Machine

/-! ## Quotients and remainders (R7, R12) -/

theorem fmod_eq_emod (a m : Int) : fmod a m = a % m := (Int.emod_def a m).symm

theorem tmod_eq_tmod (a m : Int) : tmod a m = Int.tmod a m := (Int.tmod_def a m).symm

/-- The truncated remainder has the sign of the dividend. -/
theorem tmod_nonpos {a m : Int} (ha : a ≤ 0) : tmod a m ≤ 0 := by
  have h : 0 ≤ Int.tmod (-a) m := Int.tmod_nonneg m (by omega)
  rw [Int.neg_tmod] at h
  rw [tmod_eq_tmod]
  omega

/-- Settles O1: both divisions are those of the library, whose laws these are. -/
theorem divisionFloorsOrTruncates : Obligations.DivisionFloorsOrTruncates := by
  intro a m hm
  refine ⟨Int.ediv_mul_le a hm.ne', fun q hq => (Int.le_ediv_iff_mul_le hm).mpr hq, rfl, ?_, ?_, rfl, ?_, ?_, ?_,
    tmod_nonpos⟩
  · rw [fmod_eq_emod]; exact Int.emod_nonneg a hm.ne'
  · rw [fmod_eq_emod]; exact Int.emod_lt_of_pos a hm
  · rw [tmod_eq_tmod]; exact Int.lt_tmod_of_pos a hm
  · rw [tmod_eq_tmod]; exact Int.tmod_lt_of_pos a hm
  · rw [tmod_eq_tmod]; exact Int.tmod_nonneg m

/-! ## The fields of an instruction cell (R91, R92) -/

theorem modeField_floored {P : Params} (h : P.decodeMod = .floored) (k : Nat) (cell : Int) :
    modeField P k cell = cell / 10 ^ (k + 1) % 10 := by
  simp only [modeField, remainder, quotient, h, fmod_eq_emod]
  rfl

/-- Where the cell is not negative, `DECODE_MOD` does not matter (R7). -/
theorem opcodeField_of_nonneg (P : Params) {cell : Int} (h : 0 ≤ cell) : opcodeField P cell = cell % 100 := by
  cases hd : P.decodeMod with
  | floored => rw [opcodeField_floored hd, fmod_eq_emod]
  | truncated => rw [opcodeField_truncated hd, tmod_eq_tmod, Int.tmod_eq_emod_of_nonneg h]

theorem modeField_of_nonneg (P : Params) (k : Nat) {cell : Int} (h : 0 ≤ cell) :
    modeField P k cell = cell / 10 ^ (k + 1) % 10 := by
  cases hd : P.decodeMod with
  | floored => exact modeField_floored hd k cell
  | truncated =>
    have hq : 0 ≤ cell / 10 ^ (k + 1) := Int.ediv_nonneg h (by positivity)
    simp only [modeField, remainder, quotient, hd, tmod_eq_tmod, tdiv]
    rw [Int.tdiv_eq_ediv_of_nonneg h, Int.tmod_eq_emod_of_nonneg hq]

/-- The modes of the parameters 1, 2 and 3 as the cell spells them (R92). -/
def modeFields (P : Params) (cell : Int) : List Int :=
  [modeField P 1 cell, modeField P 2 cell, modeField P 3 cell]

/-- The modes of the parameters 1, 2 and 3 as the encoder spells them, 0 where there is no such parameter (R111). -/
def modeDigitList (i : Instr) : List Int :=
  [(modeDigits i).1, (modeDigits i).2.1, (modeDigits i).2.2]

/-- Settles O2: floored quotients by the powers of ten, a remainder by ten at each. -/
theorem fieldsAreTheDecimalDigits : Obligations.FieldsAreTheDecimalDigits := by
  intro P cell hd
  rw [opcodeField_floored hd, fmod_eq_emod]
  simp only [modeField_floored hd, fdiv]
  refine ⟨by omega, by omega, fun k => by omega, by omega⟩

/-! ## When four cells decode to an instruction (R90, R123 to R125) -/

/-- The operands of an opcode decode to `i` exactly when its modes and its raw parameters are spelt in the cells, and no
unused digit is set where that is a fault. -/
theorem decodeOperands_ok {P : Params} {op : Opcode} {cell p1 p2 p3 : Int} {i : Instr} :
    decodeOperands P op cell p1 p2 p3 = .ok i ↔ op = i.opcode ∧
      (modeFields P cell).take i.rawParams.length = (modeDigitList i).take i.rawParams.length ∧
      [p1, p2, p3].take i.rawParams.length = i.rawParams ∧ checkUnused P i.rawParams.length cell = .ok () := by
  constructor
  · intro h
    cases op with
    | add | mul | lt | eq =>
      obtain ⟨a, ⟨ha, rfl⟩, b, ⟨hb, rfl⟩, d, ⟨hd, rfl⟩, hu, rfl⟩ := decodeF3_ok.mp h
      simp [Instr.opcode, Instr.rawParams, modeFields, modeDigitList, modeDigits, ha, hb, hd, hu]
    | jnz | jz =>
      obtain ⟨a, ⟨ha, rfl⟩, b, ⟨hb, rfl⟩, hu, rfl⟩ := decodeF2_ok.mp h
      simp [Instr.opcode, Instr.rawParams, modeFields, modeDigitList, modeDigits, ha, hb, hu]
    | out | arb =>
      obtain ⟨a, ⟨ha, rfl⟩, hu, rfl⟩ := decodeF1I_ok.mp h
      simp [Instr.opcode, Instr.rawParams, modeFields, modeDigitList, modeDigits, ha, hu]
    | inp =>
      obtain ⟨d, ⟨hd, rfl⟩, hu, rfl⟩ := decodeF1O_ok.mp h
      simp [Instr.opcode, Instr.rawParams, modeFields, modeDigitList, modeDigits, hd, hu]
    | hlt =>
      obtain ⟨u, hu, hi⟩ := except_bind_ok.mp h
      cases hi
      simp [Instr.opcode, Instr.rawParams, hu]
  · rintro ⟨rfl, hm, hp, hu⟩
    cases i with
    | add a b d | mul a b d | lt a b d | eq a b d =>
      obtain ⟨ha, hb, hd⟩ := by simpa [Instr.rawParams, modeFields, modeDigitList, modeDigits] using hm
      obtain ⟨rfl, rfl, rfl⟩ := by simpa [Instr.rawParams] using hp
      exact decodeF3_ok.mpr ⟨a, ⟨ha, rfl⟩, b, ⟨hb, rfl⟩, d, ⟨hd, rfl⟩, hu, rfl⟩
    | jnz a t | jz a t =>
      obtain ⟨ha, hb⟩ := by simpa [Instr.rawParams, modeFields, modeDigitList, modeDigits] using hm
      obtain ⟨rfl, rfl⟩ := by simpa [Instr.rawParams] using hp
      exact decodeF2_ok.mpr ⟨a, ⟨ha, rfl⟩, t, ⟨hb, rfl⟩, hu, rfl⟩
    | out a | arb a =>
      have hm' := by simpa [Instr.rawParams, modeFields, modeDigitList, modeDigits] using hm
      exact decodeF1I_ok.mpr ⟨a, ⟨hm', by simpa [Instr.rawParams] using hp⟩, hu, rfl⟩
    | inp d =>
      have hm' := by simpa [Instr.rawParams, modeFields, modeDigitList, modeDigits] using hm
      exact decodeF1O_ok.mpr ⟨d, ⟨hm', by simpa [Instr.rawParams] using hp⟩, hu, rfl⟩
    | hlt => exact except_bind_ok.mpr ⟨(), hu, rfl⟩

/-- Four cells decode to `i` exactly when the instruction cell names its opcode and spells its modes, and the cells after
it are its raw parameters. -/
theorem decode_ok {P : Params} {cell p1 p2 p3 : Int} {i : Instr} :
    decode P cell p1 p2 p3 = .ok i ↔ opcodeField P cell = opcodeNumber i.opcode ∧
      (modeFields P cell).take i.rawParams.length = (modeDigitList i).take i.rawParams.length ∧
      [p1, p2, p3].take i.rawParams.length = i.rawParams ∧ checkUnused P i.rawParams.length cell = .ok () := by
  constructor
  · intro h
    cases hl : lookup (opcodeField P cell) with
    | none => cases (decode_of_lookup_none hl).symm.trans h
    | some op =>
      have hop := lookup_eq_some.mp hl
      obtain ⟨rfl, hrest⟩ := decodeOperands_ok.mp ((decode_of_opcodeField hop).symm.trans h)
      exact ⟨hop, hrest⟩
  · rintro ⟨hop, hrest⟩
    exact (decode_of_opcodeField hop).trans (decodeOperands_ok.mpr ⟨rfl, hrest⟩)

/-! ## The canonical cell (R108, R111) -/

/-- The mode digits of the operand forms are 0, 1 and 2. -/
theorem modeDigits_range (i : Instr) :
    (0 ≤ (modeDigits i).1 ∧ (modeDigits i).1 ≤ 2) ∧ (0 ≤ (modeDigits i).2.1 ∧ (modeDigits i).2.1 ≤ 2) ∧
      (0 ≤ (modeDigits i).2.2 ∧ (modeDigits i).2.2 ≤ 2) := by
  have hzero : (0 : Int) ≤ 0 ∧ (0 : Int) ≤ 2 := by decide
  cases i with
  | add a b d | mul a b d | lt a b d | eq a b d =>
    exact ⟨inModeDigit_range a, inModeDigit_range b, outModeDigit_range d⟩
  | jnz a t | jz a t => exact ⟨inModeDigit_range a, inModeDigit_range t, hzero⟩
  | out a | arb a => exact ⟨inModeDigit_range a, hzero, hzero⟩
  | inp d => exact ⟨outModeDigit_range d, hzero, hzero⟩
  | hlt => exact ⟨hzero, hzero, hzero⟩

/-- The digits above the last parameter are 0 in the canonical form. -/
theorem eq_zero_of_mem_drop_modeDigitList (i : Instr) : ∀ m ∈ (modeDigitList i).drop i.rawParams.length, m = 0 := by
  cases i <;> simp [modeDigitList, modeDigits, Instr.rawParams]

theorem encodeCell_range (i : Instr) : 0 ≤ encodeCell i ∧ encodeCell i < 100000 := by
  have hop := opcodeNumber_range i.opcode
  have hm := modeDigits_range i
  unfold encodeCell
  omega

theorem opcodeField_encodeCell (P : Params) (i : Instr) : opcodeField P (encodeCell i) = opcodeNumber i.opcode := by
  have hop := opcodeNumber_range i.opcode
  rw [opcodeField_of_nonneg P (encodeCell_range i).1]
  unfold encodeCell
  omega

theorem modeFields_encodeCell (P : Params) (i : Instr) : modeFields P (encodeCell i) = modeDigitList i := by
  have hop := opcodeNumber_range i.opcode
  have hm := modeDigits_range i
  have hdigit := fun k => modeField_of_nonneg P k (encodeCell_range i).1
  simp only [modeFields, modeDigitList, hdigit, List.cons.injEq, and_true]
  unfold encodeCell
  omega

theorem unusedDigitsZero_iff {P : Params} {n : Nat} {cell : Int} :
    unusedDigitsZero P n cell = true ↔ (∀ m ∈ (modeFields P cell).drop n, m = 0) ∧ fdiv cell 100000 = 0 := by
  obtain _ | _ | _ | n := n <;> simp [unusedDigitsZero, modeFields]

/-- A canonical cell has no unused digit set, so that both settings of `UNUSED_MODE_DIGITS` accept it (R9). -/
theorem checkUnused_encodeCell (P : Params) (i : Instr) :
    checkUnused P i.rawParams.length (encodeCell i) = .ok () := by
  have hrange := encodeCell_range i
  have hzero : unusedDigitsZero P i.rawParams.length (encodeCell i) = true := by
    rw [unusedDigitsZero_iff, modeFields_encodeCell]
    exact ⟨eq_zero_of_mem_drop_modeDigitList i, by unfold fdiv; omega⟩
  unfold checkUnused
  rw [hzero, if_pos rfl]
  cases P.unusedDigits <;> rfl

/-- A canonical cell before the raw parameters decodes to its instruction. -/
theorem decode_encodeCell {P : Params} {i : Instr} {p1 p2 p3 : Int}
    (h : [p1, p2, p3].take i.rawParams.length = i.rawParams) : decode P (encodeCell i) p1 p2 p3 = .ok i :=
  decode_ok.mpr ⟨opcodeField_encodeCell P i, by rw [modeFields_encodeCell], h, checkUnused_encodeCell P i⟩

/-- Settles O3: the fields of the canonical cell are the opcode number and the mode digits it was made of, under both
divisions, and the first of the following cells are the raw parameters. -/
theorem encodedInstructionDecodesBack : Obligations.EncodedInstructionDecodesBack := by
  intro P i rest
  refine decode_encodeCell ?_
  cases i <;> rfl

/-! ## The strict decoder (R9, R103, R104) -/

/-- Two lists of one length that begin alike and go on with zeros are equal. -/
theorem eq_of_take_eq_of_drop_zero {xs ys : List Int} {n : Nat} (hlen : xs.length = ys.length)
    (htake : xs.take n = ys.take n) (hx : ∀ x ∈ xs.drop n, x = 0) (hy : ∀ y ∈ ys.drop n, y = 0) : xs = ys := by
  have hdrop : xs.drop n = ys.drop n := by
    rw [List.eq_replicate_of_mem hx, List.eq_replicate_of_mem hy, List.length_drop, List.length_drop, hlen]
  rw [← List.take_append_drop n xs, ← List.take_append_drop n ys, htake, hdrop]

/-- A cell without a digit at `10^5` or above is the sum of its fields. -/
theorem eq_encodeCell_of_fields {P : Params} {cell : Int} {i : Instr} (hhigh : fdiv cell 100000 = 0)
    (hop : opcodeField P cell = opcodeNumber i.opcode) (hmodes : modeFields P cell = modeDigitList i) :
    cell = encodeCell i := by
  unfold fdiv at hhigh
  have hcell : 0 ≤ cell := by omega
  simp only [modeFields, modeDigitList, modeField_of_nonneg P _ hcell, List.cons.injEq, and_true] at hmodes
  rw [opcodeField_of_nonneg P hcell] at hop
  unfold encodeCell
  omega

theorem unusedDigitsZero_of_checkUnused {P : Params} {n : Nat} {cell : Int} (hP : P.unusedDigits = .fault)
    (h : checkUnused P n cell = .ok ()) : unusedDigitsZero P n cell = true := by
  by_contra hzero
  simp [checkUnused, hP, hzero] at h

/-- Settles O4: with its unused digits 0 the cell spells all the digits of the canonical one, and nothing above them. -/
theorem strictDecoderAcceptsOnlyCanonicalCells : Obligations.StrictDecoderAcceptsOnlyCanonicalCells := by
  intro P cell p1 p2 p3 i hP h
  obtain ⟨hop, hmodes, hparams, hunused⟩ := decode_ok.mp h
  obtain ⟨hdrop, hhigh⟩ := unusedDigitsZero_iff.mp (unusedDigitsZero_of_checkUnused hP hunused)
  have hall : modeFields P cell = modeDigitList i :=
    eq_of_take_eq_of_drop_zero rfl hmodes hdrop (eq_zero_of_mem_drop_modeDigitList i)
  rw [encode, ← eq_encodeCell_of_fields hhigh hop hall, hparams]

/-! ## Digits that do not matter (R103, R104) -/

theorem opcodeField_add_mul (cell j : Int) : opcodeField hardware (cell + 100 * j) = opcodeField hardware cell := by
  simp only [opcodeField_floored (P := hardware) rfl, fmod_eq_emod]
  exact Int.add_mul_emod_self_left cell 100 j

/-- A multiple of a power of ten above a mode digit does not change it. -/
theorem modeField_add_mul {k n : Nat} (h : k ≤ n) (cell j : Int) :
    modeField hardware k (cell + 100 * 10 ^ n * j) = modeField hardware k cell := by
  obtain ⟨d, rfl⟩ := Nat.exists_eq_add_of_le h
  have hsplit : (100 * 10 ^ (k + d) * j : Int) = 10 ^ (k + 1) * (10 * (10 ^ d * j)) := by ring
  simp only [modeField_floored (P := hardware) rfl]
  rw [hsplit, Int.add_mul_ediv_left _ _ (by positivity), Int.add_mul_emod_self_left]

theorem modeFields_take_add_mul (n : Nat) (cell j : Int) :
    (modeFields hardware (cell + 100 * 10 ^ n * j)).take n = (modeFields hardware cell).take n := by
  have hle : ∀ k ∈ [1, 2, 3].take n, k ≤ n := by obtain _ | _ | _ | n := n <;> simp
  have hmap : ∀ c, (modeFields hardware c).take n = ([1, 2, 3].take n).map fun k => modeField hardware k c :=
    fun c => (List.map_take (f := fun k => modeField hardware k c) (l := [1, 2, 3])).symm
  rw [hmap, hmap]
  exact List.map_congr_left fun k hk => modeField_add_mul (hle k hk) cell j

/-- Settles O5: the opcode field and the first `n` mode digits are the same, and this hardware ignores the others. -/
theorem unusedDigitsDoNotMatter : Obligations.UnusedDigitsDoNotMatter := by
  intro cell p1 p2 p3 j i h
  obtain ⟨hop, hmodes, hparams, -⟩ := decode_ok.mp h
  refine decode_ok.mpr ⟨?_, ?_, hparams, rfl⟩
  · rw [mul_assoc, opcodeField_add_mul, hop]
  · rw [modeFields_take_add_mul, hmodes]

/-! ## Cells that are rejected, cells that are listed -/

/-- Settles O6: the truncated opcode field of a negative cell is not positive, and every opcode number is. -/
theorem truncatedDecoderRejectsNegativeCells : Obligations.TruncatedDecoderRejectsNegativeCells := by
  intro P cell p1 p2 p3 hP hcell
  refine decode_of_lookup_none (Option.eq_none_iff_forall_ne_some.mpr fun op hop => ?_)
  have hfield := lookup_eq_some.mp hop
  rw [opcodeField_truncated hP] at hfield
  have hnonpos := tmod_nonpos (m := 100) hcell.le
  have hpos := opcodeNumber_range op
  omega

/-- Settles O7: thirteen decodings, evaluated. -/
theorem listedCellsDecode : Obligations.ListedCellsDecode := by
  unfold Obligations.ListedCellsDecode
  decide

/-! ## The assembler (R107, R108) -/

@[simp] theorem asmOperand_asmOfIn (labels : List (String × Nat)) (o : InOperand) :
    asmOperand labels .input (asmOfIn o) = some (inModeDigit o, o.raw) := by
  cases o <;> rfl

@[simp] theorem asmOperand_asmOfOut (labels : List (String × Nat)) (o : OutOperand) :
    asmOperand labels .output (asmOfOut o) = some (outModeDigit o, o.raw) := by
  cases o <;> rfl

/-- The operands a listing writes spell the mode digits and the raw parameters of the encoder. -/
theorem asmOperands_asmOperandsOf (labels : List (String × Nat)) (i : Instr) :
    asmOperands labels (opcodeShape i.opcode) (asmOperandsOf i) =
      some (((modeDigitList i).take i.rawParams.length).zip i.rawParams) := by
  cases i <;> simp [asmOperands, asmOperandsOf, opcodeShape, Instr.opcode, modeDigitList, modeDigits, Instr.rawParams]

theorem asmItem_asmOf (labels : List (String × Nat)) (i : Instr) : asmItem labels (asmOf i) = some (encode i) := by
  simp only [asmItem, asmOf, asmOperands_asmOperandsOf]
  cases i <;> simp [encode, encodeCell, asmModes, modeDigitList, modeDigits, Instr.rawParams, add_assoc]

/-- Settles O8: the one item emits the cells of its encoding. -/
theorem assembledInstructionIsItsEncoding : Obligations.AssembledInstructionIsItsEncoding := by
  intro i
  simp [assemble, asmItem_asmOf]

/-! ## `VAL` and the legal addresses (R5, R6, R14) -/

theorem inVal_of_cellLegal {P : Params} {c : MemCell} (h : cellLegal P c = true) : inVal P c.2 = true :=
  (cellLegal_iff.mp h).2

/-- Every cell of a legal memory reads as a value: a listed one by its check, any other is 0 (R61). -/
theorem inVal_readAt {P : Params} {s : State} (hm : s.mem.all (cellLegal P) = true) (a : Int) :
    inVal P (readAt s a) = true := by
  obtain h | h := read_eq_zero_or_mem s.mem a.toNat
  · rw [readAt, h]; exact inVal_zero P
  · exact inVal_of_cellLegal (List.all_eq_true.mp hm _ h)

theorem inVal_inValue {P : Params} {s : State} {o : InOperand} (hm : s.mem.all (cellLegal P) = true)
    (ho : inVal P o.raw = true) : inVal P (inValue s o) = true := by
  cases o with
  | position | relative => exact inVal_readAt hm _
  | immediate => exact ho

/-- What the decoder reads from a legal memory has whole cells for raw parameters (R95). -/
theorem wellFormed_of_fetchInstr {P : Params} {s : State} {i : Instr} (hm : s.mem.all (cellLegal P) = true)
    (h : fetchInstr P s = .ok i) : i.wellFormed P = true := by
  obtain ⟨-, hdecode⟩ := fetchInstr_ok.mp h
  obtain ⟨-, -, hparams, -⟩ := decode_ok.mp hdecode
  rw [Instr.wellFormed, ← hparams, List.all_eq_true]
  intro p hp
  have hcell : p ∈ [paramCell s 1, paramCell s 2, paramCell s 3] := List.mem_of_mem_take hp
  simp only [List.mem_cons, List.not_mem_nil, or_false] at hcell
  obtain rfl | rfl | rfl := hcell <;> exact inVal_readAt hm _

/-! ## What an effect may write (R64, R131, R225) -/

/-- Every write of the effect is a legal one: a legal cell, and values for `OUTQ`, `RB` and `PC`. -/
structure LegalEffect (P : Params) (e : Effect) : Prop where
  write : e.write.all (cellLegal P) = true
  output : e.output.all (inVal P) = true
  newRb : e.newRb.all (inVal P) = true
  nextPc : inVal P e.nextPc = true

theorem effectF3_legal {P : Params} {op : Opcode} {f : Int → Int → Int} {a b : InOperand} {d : OutOperand} {s : State}
    {e : Effect} (h : effectF3 P op f a b d s = .ok e) : LegalEffect P e := by
  have hwrite := effectF3_write_legal h
  obtain ⟨-, hpc, -, rfl⟩ := effectF3_ok h
  exact ⟨hwrite, rfl, rfl, hpc⟩

/-- A jump's target is not checked (R172): it is a value because a cell or a raw parameter holds it. -/
theorem effectJump_legal {P : Params} {op : Opcode} {taken : Int → Bool} {a t : InOperand} {s : State} {e : Effect}
    (ht : inVal P (inValue s t) = true) (h : effectJump P op taken a t s = .ok e) : LegalEffect P e := by
  obtain ⟨-, rfl⟩ | ⟨-, hpc, rfl⟩ := effectJump_ok h
  · exact ⟨rfl, rfl, rfl, ht⟩
  · exact ⟨rfl, rfl, rfl, hpc⟩

/-- An action on a state that meets the invariant writes legal cells and values only. -/
theorem effectOf_legal {P : Params} {i : Instr} {s : State} {e : Effect} (hs : s.Inv P) (hi : i.wellFormed P = true)
    (h : effectOf P i s = .ok e) : LegalEffect P e := by
  have hin : ∀ o : InOperand, o.raw ∈ i.rawParams → inVal P (inValue s o) = true :=
    fun o ho => inVal_inValue hs.memLegal (List.all_eq_true.mp hi _ ho)
  cases i with
  | add | mul | lt | eq => exact effectF3_legal h
  | jnz a t | jz a t => exact effectJump_legal (hin t (by simp [Instr.rawParams])) h
  | inp =>
    have hwrite := inEffect_write_legal hs.inrVal h
    obtain ⟨v, -, hpc, -, rfl⟩ := inEffect_ok h
    exact ⟨hwrite, rfl, rfl, hpc⟩
  | out a =>
    obtain ⟨-, hpc, rfl⟩ := outEffect_ok h
    exact ⟨rfl, hin a (by simp [Instr.rawParams]), rfl, hpc⟩
  | arb =>
    obtain ⟨-, hrb, hpc, rfl⟩ := arbEffect_ok h
    exact ⟨rfl, rfl, hrb, hpc⟩
  | hlt => cases h; exact ⟨rfl, rfl, rfl, hs.pcVal⟩

/-! ## The invariant through a commit, a raise and a step -/

theorem write_all_cellLegal {P : Params} {m : Mem} {a : Nat} {v : Int} (hm : m.all (cellLegal P) = true)
    (hc : cellLegal P (a, v) = true) : (Mem.write m a v).all (cellLegal P) = true := by
  refine List.all_eq_true.mpr fun c h => ?_
  obtain h | rfl := mem_of_mem_write h
  · exact List.all_eq_true.mp hm c h
  · exact hc

theorem writeMem_all_cellLegal {P : Params} {m : Mem} {w : Option (Nat × Int)} (hm : m.all (cellLegal P) = true)
    (hw : w.all (cellLegal P) = true) : (writeMem m w).all (cellLegal P) = true := by
  cases w with
  | none => exact hm
  | some c => exact write_all_cellLegal hm hw

theorem commit_inv {P : Params} {s : State} {e : Effect} (hs : s.Inv P) (hf : s.fault = none) (he : LegalEffect P e) :
    (commit e s).Inv P where
  memWf := writeMem_wf hs.memWf e.write
  memLegal := writeMem_all_cellLegal hs.memLegal he.write
  pcVal := he.nextPc
  rbVal := by
    have hrb := he.newRb
    rw [commit_rb]
    cases hb : e.newRb with
    | none => exact hs.rbVal
    | some b => simpa [hb] using hrb
  inrVal := hs.inrVal
  outqVal := by
    have hout := he.output
    rw [commit_outq, List.all_append, hs.outqVal]
    cases ho : e.output with
    | none => rfl
    | some v => simpa [ho] using hout
  oneEnd := fun _ => hf

theorem raise_inv {P : Params} {s : State} (hs : s.Inv P) (hh : s.halted = false) (f : Fault) : (raise f s).Inv P :=
  { hs with oneEnd := fun h => absurd (hh.symm.trans h) (by decide) }

theorem stepCommand_inv {P : Params} {s : State} (hs : s.Inv P) : (stepCommand P s).1.Inv P := by
  obtain ⟨f, -, h⟩ | ⟨-, -, h⟩ | ⟨hr, i, e, hi, he, h⟩ | ⟨hr, f, -, h⟩ := stepCommand_cases P s <;> rw [h]
  · exact hs
  · exact hs
  · have hlegal := effectOf_legal hs (wellFormed_of_fetchInstr hs.memLegal hi) he
    exact commit_inv hs ((running_iff s).mp hr).1 hlegal
  · exact raise_inv hs ((running_iff s).mp hr).2 f

/-! ## The host's step is the command (R120, R200) -/

/-- Settles O13: `exec` settles the same action that `step` of the controller commits or takes the fault of. -/
theorem stepAlwaysAnswersTheCommandsState : Obligations.StepAlwaysAnswersTheCommandsState := by
  intro s
  cases hr : running s with
  | false => rw [step, hr, if_neg (by decide), stepCommand_of_not_running hr]
  | true =>
    rw [step, hr, if_pos rfl]
    cases hi : fetchInstr hardware s with
    | error f => rw [stepCommand_of_transition_error hr (except_bind_error.mpr (.inl hi))]
    | ok i =>
      simp only [exec_eq_settle]
      cases he : effectOf hardware i s with
      | ok e => rw [stepCommand_of_transition_ok hr (transition_ok.mpr ⟨i, hi, he⟩)]; rfl
      | error f => rw [stepCommand_of_transition_error hr (except_bind_error.mpr (.inr ⟨i, hi, he⟩))]; rfl

/-- Settles O44: the host's step leaves the state of the command `step`, which keeps the invariant. -/
theorem stepKeepsTheInvariant : Obligations.StepKeepsTheInvariant := by
  intro s t hs h
  cases (stepAlwaysAnswersTheCommandsState s).symm.trans h
  exact stepCommand_inv hs

/-! ## What every step keeps, both loops keep (R201, R204) -/

/-- A property that every step keeps holds where `run` is, returned or not. -/
theorem run_of_step {P : Params} {p : State → Prop} (hstep : ∀ s, p s → p (stepCommand P s).1) {s : State} (hs : p s)
    (fuel : Nat) : p (run P fuel s).1 := by
  induction fuel generalizing s with
  | zero => exact hs
  | succ fuel ih =>
    unfold run
    split
    · exact hs
    · exact ih (hstep s hs)

theorem outputLoop_of_step {P : Params} {p : State → Prop} (hstep : ∀ s, p s → p (stepCommand P s).1) {s : State}
    (hs : p s) (len fuel : Nat) : p (outputLoop P len fuel s).1 := by
  induction fuel generalizing s with
  | zero => exact hs
  | succ fuel ih =>
    unfold outputLoop
    split
    · exact hstep s hs
    · exact ih (hstep s hs)

theorem runUntilOutput_of_step {P : Params} {p : State → Prop} (hstep : ∀ s, p s → p (stepCommand P s).1) {s : State}
    (hs : p s) (fuel : Nat) : p (runUntilOutput P fuel s).1 := by
  cases hr : running s with
  | false => rwa [runUntilOutput_of_not_running hr]
  | true => rw [runUntilOutput_of_running hr]; exact outputLoop_of_step hstep hs _ fuel

/-! ## `construct` and the invariant (R260, R261) -/

theorem firstOutside_eq_none {P : Params} {vs : List Int} : firstOutside P vs = none ↔ ∀ v ∈ vs, inVal P v = true := by
  simp [firstOutside]

/-- What is neither negative nor above some value is a legal address, since `ADDR_MAX` is `VAL_MAX` (R6). -/
theorem legalAddr_of_le {P : Params} {a b : Int} (ha : 0 ≤ a) (hab : a ≤ b) (hb : leValMax P b = true) :
    legalAddr P a = true := by
  rw [legalAddr, decide_eq_true ha, Bool.true_and]
  unfold leValMax at hb ⊢
  cases hc : P.cellBits with
  | inf => rfl
  | finite n =>
    simp only [hc, decide_eq_true_eq] at hb ⊢
    omega

/-- Values placed at addresses up to a legal one leave a legal memory. -/
theorem place_all_cellLegal {P : Params} {m : Mem} {a : Nat} {vs : List Int} (hm : m.all (cellLegal P) = true)
    (hvs : ∀ v ∈ vs, inVal P v = true) (hfit : leValMax P (a + vs.length - 1) = true) :
    (Mem.place m a vs).all (cellLegal P) = true := by
  induction vs generalizing m a with
  | nil => exact hm
  | cons v vs ih =>
    obtain ⟨hv, hvs⟩ := List.forall_mem_cons.mp hvs
    have hlast : ((a : Int) + (v :: vs).length - 1) = ((a + 1 : Nat) : Int) + vs.length - 1 := by
      rw [List.length_cons]; omega
    have ha : legalAddr P a = true := legalAddr_of_le (by omega) (by omega) (hlast ▸ hfit)
    exact ih (write_all_cellLegal hm (cellLegal_iff.mpr ⟨ha, hv⟩)) hvs (hlast ▸ hfit)

theorem reset_inv (P : Params) : State.reset.Inv P where
  memWf := rfl
  memLegal := rfl
  pcVal := inVal_zero P
  rbVal := inVal_zero P
  inrVal := rfl
  outqVal := rfl
  oneEnd := nofun

/-- Settles O42: every element after reset is 0, empty, false or none. -/
theorem resetMeetsTheInvariant : Obligations.ResetMeetsTheInvariant := reset_inv

theorem constructed_inv {P : Params} {image : List Int} {input : Option Int}
    (hvals : ∀ v ∈ image ++ input.toList, inVal P v = true) (hfit : imageFits P image = true) :
    (constructed image input).Inv P :=
  { reset_inv P with
    memWf := place_wf rfl 0 image
    memLegal := place_all_cellLegal rfl (fun v hv => hvals v (List.mem_append_left _ hv)) (by simpa [imageFits] using hfit)
    inrVal := by
      cases input with
      | none => rfl
      | some v => exact hvals v (by simp)
    oneEnd := nofun }

/-! ## The commands and the invariant -/

theorem portAnswer_inv {P : Params} {s : State} (hs : s.Inv P) {x : Except Refusal State}
    (hx : ∀ t, x = .ok t → t.Inv P) : (portAnswer s x).1.Inv P := by
  cases x with
  | ok t => exact hx t rfl
  | error r => exact hs

theorem construct_inv {P : Params} {image : List Int} {input : Option Int} {t : State}
    (h : construct P image input = .ok t) : t.Inv P := by
  unfold construct at h
  split at h
  · cases h
  · next hvals =>
    split at h
    · cases h
      exact constructed_inv (firstOutside_eq_none.mp hvals) ‹_›
    · cases h

theorem writeInput_inv {P : Params} {s t : State} {v : Int} (hs : s.Inv P) (h : writeInput P v s = .ok t) : t.Inv P := by
  unfold writeInput at h
  split at h
  · next hv =>
    cases h
    exact { hs with inrVal := hv }
  · cases h

/-- Settles O45: the two ports check what they write, the executing commands are sequences of steps, and the views
leave the state. -/
theorem commandsKeepTheInvariant : Obligations.CommandsKeepTheInvariant := by
  intro P c s _ hs
  cases c with
  | construct image input => exact portAnswer_inv hs fun _ => construct_inv
  | writeInput v => exact portAnswer_inv hs fun _ => writeInput_inv hs
  | step => exact stepCommand_inv hs
  | run fuel => exact run_of_step (fun _ => stepCommand_inv) hs fuel
  | runUntilOutput fuel => exact runUntilOutput_of_step (fun _ => stepCommand_inv) hs fuel
  | peek a => rw [command_peek]; exact hs
  | outputs | halted | fault | pc | rb => exact hs

/-! ## Parameters and operands that resolve, and operands that do not (R126 to R131) -/

theorem legalAddr_of_paramsLegal {P : Params} {s : State} {n k : Nat} (h : paramsLegal P s n = true) (hk : k < n) :
    legalAddr P (s.pc + (k + 1 : Nat)) = true :=
  List.all_eq_true.mp h k (List.mem_range.mpr hk)

/-- On this hardware a `PC` that is not negative has all its parameter cells at legal addresses. -/
theorem paramsLegal_hardware {s : State} (hpc : 0 ≤ s.pc) (n : Nat) : paramsLegal hardware s n = true := by
  rw [paramsLegal, List.all_eq_true]
  intro j _
  rw [legalAddr_hardware, decide_eq_true_eq]
  omega

theorem fetchIn_of_legal {P : Params} {s : State} {o : InOperand} {n k : Nat} (hp : paramsLegal P s n = true)
    (hk : k < n) (ho : inLegal P s o = true) : fetchIn P s (k + 1) o = .ok (inValue s o) :=
  fetchIn_ok.mpr ⟨legalAddr_of_paramsLegal hp hk, ho, rfl⟩

theorem fetchOut_of_legal {P : Params} {s : State} {o : OutOperand} {n k : Nat} (hp : paramsLegal P s n = true)
    (hk : k < n) (ho : outLegal P s o = true) : fetchOut P s (k + 1) o = .ok (outAddr s o).toNat :=
  fetchOut_ok.mpr ⟨legalAddr_of_paramsLegal hp hk, ho, rfl⟩

theorem checkParam_of_legal {P : Params} {s : State} {n k : Nat} (hp : paramsLegal P s n = true) (hk : k < n) :
    checkParam P s (k + 1) = .ok () := by
  rw [checkParam_eq, if_pos (legalAddr_of_paramsLegal hp hk)]

theorem fetchIn_of_illegal {P : Params} {s : State} {o : InOperand} {n k : Nat} {x : Int}
    (hp : paramsLegal P s n = true) (hk : k < n) (ho : inAddr s o = some x) (hx : legalAddr P x = false) :
    fetchIn P s (k + 1) o = .error (.invalidAddress x) :=
  except_bind_error.mpr (.inr ⟨(), checkParam_of_legal hp hk, resolveIn_error.mpr ⟨x, ho, hx, rfl⟩⟩)

theorem fetchOut_of_illegal {P : Params} {s : State} {o : OutOperand} {n k : Nat} (hp : paramsLegal P s n = true)
    (hk : k < n) (ho : outLegal P s o = false) : fetchOut P s (k + 1) o = .error (.invalidAddress (outAddr s o)) :=
  except_bind_error.mpr (.inr ⟨(), checkParam_of_legal hp hk, legalCell_error.mpr ⟨ho, rfl⟩⟩)

/-! ## Actions whose operands resolve (R132 to R136) -/

/-- With its operands resolved a storing action still has to check its result and the next `PC`. -/
theorem effectF3_of_legal {P : Params} {op : Opcode} {f : Int → Int → Int} {a b : InOperand} {d : OutOperand}
    {s : State} (hp : paramsLegal P s 3 = true) (ha : inLegal P s a = true) (hb : inLegal P s b = true)
    (hd : outLegal P s d = true) :
    effectF3 P op f a b d s = (do
      let r ← checkedVal P s (f (inValue s a) (inValue s b))
      let next ← advance P s op
      return { write := some ((outAddr s d).toNat, r), nextPc := next }) := by
  simp only [effectF3, fetchIn_of_legal (k := 0) hp (by decide) ha, fetchIn_of_legal (k := 1) hp (by decide) hb,
    fetchOut_of_legal (k := 2) hp (by decide) hd]
  rfl

theorem effectJump_of_legal {P : Params} {op : Opcode} {taken : Int → Bool} {a t : InOperand} {s : State}
    (hp : paramsLegal P s 2 = true) (ha : inLegal P s a = true) (ht : inLegal P s t = true) :
    effectJump P op taken a t s =
      if taken (inValue s a) then .ok { nextPc := inValue s t }
      else advance P s op >>= fun next => .ok { nextPc := next } := by
  simp only [effectJump, fetchIn_of_legal (k := 0) hp (by decide) ha, fetchIn_of_legal (k := 1) hp (by decide) ht]
  rfl

theorem arbEffect_of_legal {P : Params} {a : InOperand} {s : State} (hp : paramsLegal P s 1 = true)
    (ha : inLegal P s a = true) :
    arbEffect P a s = (do
      let b ← checkedVal P s (s.rb + inValue s a)
      let next ← advance P s .arb
      return { newRb := some b, nextPc := next }) := by
  simp only [arbEffect, fetchIn_of_legal (k := 0) hp (by decide) ha]
  rfl

theorem outEffect_of_legal {P : Params} {a : InOperand} {s : State} (hp : paramsLegal P s 1 = true)
    (ha : inLegal P s a = true) :
    outEffect P a s = advance P s .out >>= fun next => .ok { output := some (inValue s a), nextPc := next } := by
  simp only [outEffect, fetchIn_of_legal (k := 0) hp (by decide) ha]
  rfl

theorem inEffect_of_legal {P : Params} {d : OutOperand} {s : State} (hp : paramsLegal P s 1 = true)
    (hd : outLegal P s d = true) :
    inEffect P d s = (do
      let v ← readInput s
      let next ← advance P s .inp
      return { write := some ((outAddr s d).toNat, v), nextPc := next }) := by
  simp only [inEffect, fetchOut_of_legal (k := 0) hp (by decide) hd]
  rfl

/-! ## What each kind of effect commits (R133) -/

theorem commit_of_write (s : State) (a : Nat) (v next : Int) :
    commit { write := some (a, v), nextPc := next } s = { s with mem := Mem.write s.mem a v, pc := next } := by
  simp [commit, writeMem]

theorem commit_of_output (s : State) (v next : Int) :
    commit { output := some v, nextPc := next } s = { s with outq := s.outq ++ [v], pc := next } := by
  simp [commit, writeMem]

theorem commit_of_newRb (s : State) (b next : Int) :
    commit { newRb := some b, nextPc := next } s = { s with rb := b, pc := next } := by
  simp [commit, writeMem]

theorem commit_of_nextPc (s : State) (next : Int) : commit { nextPc := next } s = { s with pc := next } := by
  simp [commit, writeMem]

/-! ## The ten instructions complete on this hardware -/

/-- The shared completion of `ADD`, `MUL`, `LT` and `EQ`: no result and no next `PC` is out of range. -/
theorem settle_effectF3_hardware {op : Opcode} {f : Int → Int → Int} {a b : InOperand} {d : OutOperand} {s : State}
    (hpc : 0 ≤ s.pc) (ha : inLegal hardware s a = true) (hb : inLegal hardware s b = true)
    (hd : outLegal hardware s d = true) :
    settle (effectF3 hardware op f a b d s) s =
      { s with mem := Mem.write s.mem (outAddr s d).toNat (f (inValue s a) (inValue s b)),
               pc := s.pc + opcodeLength op } := by
  rw [effectF3_of_legal (paramsLegal_hardware hpc 3) ha hb hd]
  exact commit_of_write s _ _ _

/-- Settles O19: the shared completion with the sum. -/
theorem addWritesTheExactSum : Obligations.AddWritesTheExactSum := by
  intro s a b d hpc ha hb hd
  rw [exec_eq_settle]
  exact congrArg _ (settle_effectF3_hardware hpc ha hb hd)

/-- Settles O20: the shared completion with the product. -/
theorem mulWritesTheExactProduct : Obligations.MulWritesTheExactProduct := by
  intro s a b d hpc ha hb hd
  rw [exec_eq_settle]
  exact congrArg _ (settle_effectF3_hardware hpc ha hb hd)

theorem truthValue_decide (p : Prop) [Decidable p] : truthValue (decide p) = if p then 1 else 0 := by
  by_cases h : p <;> simp [truthValue, h]

/-- Settles O21: the shared completion with the truth value of the signed comparison. -/
theorem ltWritesOneOrZero : Obligations.LtWritesOneOrZero := by
  intro s a b d hpc ha hb hd
  rw [exec_eq_settle, ← truthValue_decide]
  exact congrArg _ (settle_effectF3_hardware hpc ha hb hd)

/-- Settles O22: the shared completion with the truth value of the equality. -/
theorem eqWritesOneOrZero : Obligations.EqWritesOneOrZero := by
  intro s a b d hpc ha hb hd
  rw [exec_eq_settle, ← truthValue_decide]
  exact congrArg _ (settle_effectF3_hardware hpc ha hb hd)

/-- Settles O23: the pending input is what is read, and reading it does not take it (R161). -/
theorem inStoresThePendingInput : Obligations.InStoresThePendingInput := by
  intro s d v hpc hd hinr
  have hread : readInput s = .ok v := by simp only [readInput, hinr]
  rw [exec_eq_settle, effectOf, inEffect_of_legal (paramsLegal_hardware hpc 1) hd, hread]
  exact congrArg _ (commit_of_write s _ _ _)

/-- Settles O24: the effect has one output and no other write. -/
theorem outAppendsOneElement : Obligations.OutAppendsOneElement := by
  intro s a hpc ha
  rw [exec_eq_settle, effectOf, outEffect_of_legal (paramsLegal_hardware hpc 1) ha]
  exact congrArg _ (commit_of_output s _ _)

/-- The shared completion of the two jumps: the target is loaded unchecked (R172). -/
theorem settle_effectJump_hardware {op : Opcode} {taken : Int → Bool} {a t : InOperand} {s : State} (hpc : 0 ≤ s.pc)
    (ha : inLegal hardware s a = true) (ht : inLegal hardware s t = true) :
    settle (effectJump hardware op taken a t s) s =
      { s with pc := if taken (inValue s a) then inValue s t else s.pc + opcodeLength op } := by
  rw [effectJump_of_legal (paramsLegal_hardware hpc 2) ha ht]
  split <;> exact commit_of_nextPc s _

/-- Settles O25: the shared completion with the test of `JNZ`. -/
theorem jnzChoosesTheNextPc : Obligations.JnzChoosesTheNextPc := by
  intro s a g hpc ha hg
  rw [exec_eq_settle, effectOf, jnzEffect, settle_effectJump_hardware hpc ha hg]
  simp [isZero, opcodeLength, opcodeShape]

/-- Settles O26: the shared completion with the test of `JZ`. -/
theorem jzChoosesTheNextPc : Obligations.JzChoosesTheNextPc := by
  intro s a g hpc ha hg
  rw [exec_eq_settle, effectOf, jzEffect, settle_effectJump_hardware hpc ha hg]
  simp [isZero, opcodeLength, opcodeShape]

/-- Settles O27: the operand is resolved with the old base, and the sum is the only new element. -/
theorem arbAddsToTheRelativeBase : Obligations.ArbAddsToTheRelativeBase := by
  intro s a hpc ha
  rw [exec_eq_settle, effectOf, arbEffect_of_legal (paramsLegal_hardware hpc 1) ha]
  exact congrArg _ (commit_of_newRb s _ _)

/-! ## Where they fault (R131, R224, R225, R229) -/

theorem exec_of_error {i : Instr} {s : State} {f : Fault} (h : effectOf hardware i s = .error f) :
    exec i s = .next { s with fault := some f } := by
  rw [exec_eq_settle, h]
  rfl

theorem legalAddr_hardware_of_neg {x : Int} (hx : x < 0) : legalAddr hardware x = false := by
  rw [legalAddr_hardware, decide_eq_false (by omega)]

/-- The four instructions of format `F3` share one course. -/
theorem effectOf_eq_effectF3 {a b : InOperand} {d : OutOperand} {i : Instr}
    (hi : i ∈ [Instr.add a b d, .mul a b d, .lt a b d, .eq a b d]) (P : Params) (s : State) :
    ∃ f, effectOf P i s = effectF3 P i.opcode f a b d s := by
  simp only [List.mem_cons, List.not_mem_nil, or_false] at hi
  obtain rfl | rfl | rfl | rfl := hi <;> exact ⟨_, rfl⟩

/-- The two jumps share one course. -/
theorem effectOf_eq_effectJump {a t : InOperand} {i : Instr} (hi : i ∈ [Instr.jnz a t, .jz a t]) (P : Params)
    (s : State) : ∃ taken, effectOf P i s = effectJump P i.opcode taken a t s := by
  simp only [List.mem_cons, List.not_mem_nil, or_false] at hi
  obtain rfl | rfl := hi <;> exact ⟨_, rfl⟩

/-- Settles O29: the course of the four resolves its operands in order and stops at the first that fails. -/
theorem threeParametersReportTheFirstIllegalAddress : Obligations.ThreeParametersReportTheFirstIllegalAddress := by
  intro s a b d i hpc hi
  have hp := paramsLegal_hardware hpc 3
  obtain ⟨f, hcourse⟩ := effectOf_eq_effectF3 hi hardware s
  refine ⟨fun x hx hneg => ?_, fun x ha hx hneg => ?_, fun ha hb hneg => ?_⟩ <;>
    refine exec_of_error (hcourse.trans (except_bind_error.mpr ?_))
  · exact .inl (fetchIn_of_illegal hp (by decide) hx (legalAddr_hardware_of_neg hneg))
  · exact .inr ⟨_, fetchIn_of_legal hp (by decide) ha, except_bind_error.mpr
      (.inl (fetchIn_of_illegal hp (by decide) hx (legalAddr_hardware_of_neg hneg)))⟩
  · exact .inr ⟨_, fetchIn_of_legal hp (by decide) ha, except_bind_error.mpr
      (.inr ⟨_, fetchIn_of_legal hp (by decide) hb, except_bind_error.mpr
        (.inl (fetchOut_of_illegal hp (by decide) (legalAddr_hardware_of_neg hneg)))⟩)⟩

/-- Settles O30: both operands are resolved before the test is made. -/
theorem jumpsReportAnIllegalAddressTakenOrNot : Obligations.JumpsReportAnIllegalAddressTakenOrNot := by
  intro s a g i hpc hi
  have hp := paramsLegal_hardware hpc 2
  obtain ⟨taken, hcourse⟩ := effectOf_eq_effectJump hi hardware s
  refine ⟨fun x hx hneg => ?_, fun x ha hx hneg => ?_⟩ <;>
    refine exec_of_error (hcourse.trans (except_bind_error.mpr ?_))
  · exact .inl (fetchIn_of_illegal hp (by decide) hx (legalAddr_hardware_of_neg hneg))
  · exact .inr ⟨_, fetchIn_of_legal hp (by decide) ha, except_bind_error.mpr
      (.inl (fetchIn_of_illegal hp (by decide) hx (legalAddr_hardware_of_neg hneg)))⟩

/-- Settles O31: the operand is the first thing either action resolves. -/
theorem oneInputReportsItsIllegalAddress : Obligations.OneInputReportsItsIllegalAddress := by
  intro s a i x hpc hi hx hneg
  have hfetch := fetchIn_of_illegal (k := 0) (paramsLegal_hardware hpc 1) (by decide) hx (legalAddr_hardware_of_neg hneg)
  simp only [List.mem_cons, List.not_mem_nil, or_false] at hi
  obtain rfl | rfl := hi <;> exact exec_of_error (except_bind_error.mpr (.inl hfetch))

/-- Settles O32: the target is resolved first, `INR` is looked at second. -/
theorem inFaultsOnTargetBeforeInput : Obligations.InFaultsOnTargetBeforeInput := by
  intro s d hpc
  have hp := paramsLegal_hardware hpc 1
  refine ⟨fun hneg => ?_, fun hd hinr => ?_⟩ <;> refine exec_of_error (except_bind_error.mpr ?_)
  · exact .inl (fetchOut_of_illegal hp (by decide) (legalAddr_hardware_of_neg hneg))
  · have hread : readInput s = .error (.inputUnset (cellAtPc s)) := by simp only [readInput, hinr]
    exact .inr ⟨_, fetchOut_of_legal hp (by decide) ((outLegal_hardware s d).mpr hd),
      except_bind_error.mpr (.inl hread)⟩

theorem effectF3_overflow {P : Params} {op : Opcode} {f : Int → Int → Int} {a b : InOperand} {d : OutOperand}
    {s : State} (hp : paramsLegal P s 3 = true) (ha : inLegal P s a = true) (hb : inLegal P s b = true)
    (hd : outLegal P s d = true) (hv : inVal P (f (inValue s a) (inValue s b)) = false) :
    effectF3 P op f a b d s = .error (.valueOverflow (cellAtPc s)) :=
  (effectF3_of_legal hp ha hb hd).trans (except_bind_error.mpr (.inl (checkedVal_error.mpr ⟨hv, rfl⟩)))

/-- Settles O33: the check of the result is the first thing after the operands. -/
theorem resultOutsideValOverflows : Obligations.ResultOutsideValOverflows := by
  intro P s a b d
  refine ⟨fun hp ha hb hd => ⟨effectF3_overflow hp ha hb hd, effectF3_overflow hp ha hb hd⟩, fun hp ha hv => ?_⟩
  exact (arbEffect_of_legal hp ha).trans (except_bind_error.mpr (.inl (checkedVal_error.mpr ⟨hv, rfl⟩)))

/-! ## On this hardware nothing overflows (R225) -/

/-- The computation does not fail with `ValueOverflow`. -/
def NeverOverflows {α : Type} (x : Except Fault α) : Prop :=
  ∀ info, x ≠ .error (.valueOverflow info)

theorem neverOverflows_ok {α : Type} (v : α) : NeverOverflows (.ok v) := nofun

theorem neverOverflows_bind {α β : Type} {x : Except Fault α} {f : α → Except Fault β} (hx : NeverOverflows x)
    (hf : ∀ a, NeverOverflows (f a)) : NeverOverflows (x >>= f) := by
  intro info h
  obtain h | ⟨a, -, h⟩ := except_bind_error.mp h
  · exact hx info h
  · exact hf a info h

theorem neverOverflows_checkParam (P : Params) (s : State) (k : Nat) : NeverOverflows (checkParam P s k) := by
  rw [checkParam_eq]
  split <;> nofun

theorem neverOverflows_fetchIn (P : Params) (s : State) (k : Nat) (o : InOperand) :
    NeverOverflows (fetchIn P s k o) := by
  refine neverOverflows_bind (neverOverflows_checkParam P s k) fun _ info h => ?_
  obtain ⟨x, -, -, hx⟩ := resolveIn_error.mp h
  cases hx

theorem neverOverflows_fetchOut (P : Params) (s : State) (k : Nat) (o : OutOperand) :
    NeverOverflows (fetchOut P s k o) := by
  refine neverOverflows_bind (neverOverflows_checkParam P s k) fun _ info h => ?_
  obtain ⟨-, hx⟩ := legalCell_error.mp h
  cases hx

theorem neverOverflows_readInput (s : State) : NeverOverflows (readInput s) := by
  unfold readInput
  split <;> nofun

/-- Every reject of the decoder has a fault of its own (R220). -/
theorem neverOverflows_fetchInstr (P : Params) (s : State) : NeverOverflows (fetchInstr P s) := by
  intro info h
  obtain ⟨-, hf⟩ | ⟨-, r, -, hf⟩ := fetchInstr_error.mp h
  · cases hf
  · cases r <;> cases hf

theorem neverOverflows_effectOf_hardware (i : Instr) (s : State) : NeverOverflows (effectOf hardware i s) := by
  have hin := neverOverflows_fetchIn hardware s
  have hout := neverOverflows_fetchOut hardware s
  cases i with
  | add a b d | mul a b d | lt a b d | eq a b d =>
    exact neverOverflows_bind (hin 1 a) fun _ => neverOverflows_bind (hin 2 b) fun _ =>
      neverOverflows_bind (hout 3 d) fun _ => neverOverflows_ok _
  | jnz a t | jz a t =>
    refine neverOverflows_bind (hin 1 a) fun _ => neverOverflows_bind (hin 2 t) fun _ => ?_
    split <;> exact neverOverflows_ok _
  | inp d =>
    exact neverOverflows_bind (hout 1 d) fun _ => neverOverflows_bind (neverOverflows_readInput s) fun _ =>
      neverOverflows_ok _
  | out a | arb a => exact neverOverflows_bind (hin 1 a) fun _ => neverOverflows_ok _
  | hlt => exact neverOverflows_ok _

/-- Settles O35: the only checks that raise it always pass on this hardware, and no other part of a step raises it. -/
theorem unboundedValuesNeverOverflow : Obligations.UnboundedValuesNeverOverflow :=
  fun s => neverOverflows_bind (neverOverflows_fetchInstr hardware s) fun i => neverOverflows_effectOf_hardware i s

/-! ## The next `PC` of every action (R134 to R136) -/

/-- Everything the next `PC` can be: the checked fall-through, the `PC` of a `HLT`, or the target of a taken jump. -/
theorem effectOf_nextPc {P : Params} {i : Instr} {s : State} {e : Effect} (h : effectOf P i s = .ok e) :
    (inVal P (s.pc + opcodeLength i.opcode) = true ∧ e.nextPc = s.pc + opcodeLength i.opcode) ∨
      (i = .hlt ∧ e.nextPc = s.pc) ∨
      (∃ a g, i = .jnz a g ∧ inValue s a ≠ 0 ∧ e.nextPc = inValue s g) ∨
      (∃ a g, i = .jz a g ∧ inValue s a = 0 ∧ e.nextPc = inValue s g) := by
  cases i with
  | add | mul | lt | eq => obtain ⟨-, hpc, -, rfl⟩ := effectF3_ok h; exact .inl ⟨hpc, rfl⟩
  | inp => obtain ⟨v, -, hpc, -, rfl⟩ := inEffect_ok h; exact .inl ⟨hpc, rfl⟩
  | out => obtain ⟨-, hpc, rfl⟩ := outEffect_ok h; exact .inl ⟨hpc, rfl⟩
  | arb => obtain ⟨-, -, hpc, rfl⟩ := arbEffect_ok h; exact .inl ⟨hpc, rfl⟩
  | jnz a g =>
    obtain ⟨htaken, rfl⟩ | ⟨-, hpc, rfl⟩ := effectJump_ok h
    · exact .inr (.inr (.inl ⟨a, g, rfl, by simpa [isZero] using htaken, rfl⟩))
    · exact .inl ⟨hpc, rfl⟩
  | jz a g =>
    obtain ⟨htaken, rfl⟩ | ⟨-, hpc, rfl⟩ := effectJump_ok h
    · exact .inr (.inr (.inr ⟨a, g, rfl, by simpa [isZero] using htaken, rfl⟩))
    · exact .inl ⟨hpc, rfl⟩
  | hlt => cases h; exact .inr (.inl ⟨rfl, rfl⟩)

/-- Settles O34: the fall-through is the one next `PC` that is checked, and the check fails. -/
theorem noFallThroughPastTheLastValue : Obligations.NoFallThroughPastTheLastValue := by
  intro P s i e hout h
  obtain ⟨hin, -⟩ | hothers := effectOf_nextPc h
  · cases hin.symm.trans hout
  · exact hothers

/-- An action that does not manage `PC` itself advances it by the length of its opcode. -/
theorem effectOf_nextPc_of_advancing {P : Params} {i : Instr} {s : State} {e : Effect} (h : effectOf P i s = .ok e)
    (hi : opcodeManagesPc i.opcode = false) : e.nextPc = s.pc + opcodeLength i.opcode := by
  obtain ⟨-, hpc⟩ | ⟨rfl, -⟩ | ⟨a, g, rfl, -⟩ | ⟨a, g, rfl, -⟩ := effectOf_nextPc h
  · exact hpc
  all_goals cases hi

/-- Settles O17: the effect is that of the instruction fetched before anything was written, and its next `PC` is the
length of its opcode further. -/
theorem completedStepAdvancesByItsLength : Obligations.CompletedStepAdvancesByItsLength := by
  intro P s t i hi hs
  obtain ⟨e, he, rfl⟩ := stepCommand_stepped hi hs
  have hadvance := effectOf_nextPc_of_advancing he
  constructor <;> intro hop <;> rw [commit_pc]
  · simp only [List.mem_cons, List.not_mem_nil, or_false] at hop
    obtain hop | hop | hop | hop := hop <;> rw [hop] at hadvance <;> exact hadvance rfl
  · simp only [List.mem_cons, List.not_mem_nil, or_false] at hop
    obtain hop | hop | hop := hop <;> rw [hop] at hadvance <;> exact hadvance rfl

/-! ## The fetch and the step of a running state (R120, R122, R203) -/

/-- Settles O15: the transition of a running state answers or fails, and the step follows it. -/
theorem runningStateStepsOrFaults : Obligations.RunningStateStepsOrFaults := by
  intro P s hr
  cases h : transition P s with
  | ok e => exact .inl ⟨e, rfl, stepCommand_of_transition_ok hr h⟩
  | error f => exact .inr ⟨f, rfl, stepCommand_of_transition_error hr h⟩

/-- Settles O12: the fetch of a legal `PC` answers what the decoder answers; a machine that is not running does not
fetch. -/
theorem stepRunsTheDecodedInstruction : Obligations.StepRunsTheDecodedInstruction := by
  intro s
  refine ⟨fun i hr hpc hi => ?_, fun r hr hpc hreject => ?_, fun hr => ?_⟩
  · have hfetch : fetchInstr hardware s = .ok i := fetchInstr_ok.mpr ⟨by simpa using hpc, hi⟩
    rw [step, if_pos hr, hfetch]
  · have hfetch : fetchInstr hardware s = .error (rejectFault r) :=
      fetchInstr_error.mpr (.inr ⟨by simpa using hpc, r, hreject, rfl⟩)
    rw [step, if_pos hr, hfetch]
    rfl
  · rw [step, hr, if_neg (by decide)]

theorem fetchCell_of_legal {P : Params} {s : State} (h : legalAddr P s.pc = true) :
    fetchCell P s = .ok (Mem.read s.mem s.pc.toNat) := by
  rw [fetchCell, if_pos h]
  rfl

/-- A cell of 0 has opcode field 0 under both divisions, and no row of the table has that number. -/
theorem decode_zero (P : Params) (p1 p2 p3 : Int) : decode P 0 p1 p2 p3 = .error (.unknownOpcode 0) := by
  have hfield : opcodeField P 0 = 0 := opcodeField_eq_of_remainders rfl rfl P
  exact decode_of_lookup_none (by rw [hfield]; rfl)

/-- A value is an illegal address only by being negative, since `ADDR_MAX` is `VAL_MAX` (R6). -/
theorem neg_of_inVal_of_illegal {P : Params} {a : Int} (hv : inVal P a = true) (ha : legalAddr P a = false) : a < 0 := by
  obtain ⟨-, hmax⟩ := Bool.and_eq_true_iff.mp hv
  by_contra hneg
  rw [legalAddr_of_le (by omega) le_rfl hmax] at ha
  cases ha

/-- Only a taken jump can leave a negative `PC` behind a legal one: everything else advances it or keeps it. -/
theorem taken_jump_of_pc_neg {P : Params} {s : State} (hpc : legalAddr P s.pc = true)
    (hneg : (stepCommand P s).1.pc < 0) :
    ∃ a g, (fetchInstr P s = .ok (.jnz a g) ∧ inValue s a ≠ 0) ∨ (fetchInstr P s = .ok (.jz a g) ∧ inValue s a = 0) := by
  have hnonneg := nonneg_of_legalAddr hpc
  obtain ⟨f, -, h⟩ | ⟨-, -, h⟩ | ⟨-, i, e, hi, he, h⟩ | ⟨-, f, -, h⟩ := stepCommand_cases P s <;> rw [h] at hneg
  case inr.inr.inl =>
    rw [commit_pc] at hneg
    obtain ⟨-, hnext⟩ | ⟨-, hnext⟩ | ⟨a, g, rfl, htaken, -⟩ | ⟨a, g, rfl, htaken, -⟩ := effectOf_nextPc he
    · omega
    · omega
    · exact ⟨a, g, .inl ⟨hi, htaken⟩⟩
    · exact ⟨a, g, .inr ⟨hi, htaken⟩⟩
  all_goals exact absurd hneg (not_lt.mpr hnonneg)

/-- Settles O9, clause by clause. -/
theorem fetchChecksTheProgramCounter : Obligations.FetchChecksTheProgramCounter := by
  intro P s hr
  refine ⟨stepCommand_of_illegal_pc hr, fetchCell_of_legal, fun hpc hzero => ?_, neg_of_inVal_of_illegal,
    taken_jump_of_pc_neg⟩
  have hcell : cellAtPc s = 0 := hzero
  have hreject : decodeAtPc P s = .error (.unknownOpcode 0) := by rw [decodeAtPc, hcell, decode_zero]
  exact stepCommand_of_reject hr hpc hreject

/-! ## Which element an action writes (R21, R191) -/

/-- Each part of an effect is filled in by the opcodes of its own row alone. -/
theorem effectOf_writers {P : Params} {i : Instr} {s : State} {e : Effect} (h : effectOf P i s = .ok e) :
    (i.opcode ≠ .arb → e.newRb = none) ∧ (i.opcode ≠ .out → e.output = none) ∧ (i.opcode ≠ .hlt → e.halts = false) ∧
      (i.opcode ∉ [Opcode.add, .mul, .inp, .lt, .eq] → e.write = none) := by
  cases i with
  | add | mul | lt | eq => obtain ⟨-, -, -, rfl⟩ := effectF3_ok h; simp [Instr.opcode]
  | inp => obtain ⟨v, -, -, -, rfl⟩ := inEffect_ok h; simp [Instr.opcode]
  | out => obtain ⟨-, -, rfl⟩ := outEffect_ok h; simp [Instr.opcode]
  | arb => obtain ⟨-, -, -, rfl⟩ := arbEffect_ok h; simp [Instr.opcode]
  | jnz | jz => obtain ⟨-, rfl⟩ | ⟨-, -, rfl⟩ := effectJump_ok h <;> simp
  | hlt => cases h; simp [Instr.opcode]

/-- Settles O47: only a commit changes these elements, and only the opcodes of the element's row fill in its part of the
effect. -/
theorem eachElementHasItsOwnWriters : Obligations.EachElementHasItsOwnWriters := by
  intro P s
  obtain ⟨f, -, h⟩ | ⟨-, -, h⟩ | ⟨-, i, e, hi, he, h⟩ | ⟨-, f, -, h⟩ := stepCommand_cases P s <;> rw [h]
  case inr.inr.inl =>
    obtain ⟨hrb, hout, hhalts, hwrite⟩ := effectOf_writers he
    refine ⟨fun hne => ⟨i, hi, ?_⟩, fun hne => ⟨i, hi, ?_⟩, fun hne => ⟨i, hi, ?_⟩, fun hne => ⟨i, hi, ?_⟩⟩ <;>
      by_contra hop <;> refine hne ?_
    · simp [hrb hop]
    · simp [hout hop]
    · simp [hhalts hop]
    · simp [hwrite hop]
  all_goals exact ⟨fun hne => absurd rfl hne, fun hne => absurd rfl hne, fun hne => absurd rfl hne,
    fun hne => absurd rfl hne⟩

/-- Settles O46: `INR` is no part of an effect, an effect has at most one output, and a commit or a raise happens only in
a running state. -/
theorem stepNeverTakesBack : Obligations.StepNeverTakesBack := by
  intro P s
  obtain ⟨f, -, h⟩ | ⟨-, -, h⟩ | ⟨hr, i, e, -, -, h⟩ | ⟨hr, f, -, h⟩ := stepCommand_cases P s <;> rw [h]
  · exact ⟨rfl, .inl rfl, id, fun _ => id⟩
  · exact ⟨rfl, .inl rfl, id, fun _ => id⟩
  · refine ⟨rfl, ?_, fun hh => by simp [hh], fun _ => id⟩
    cases ho : e.output with
    | none => left; simp [ho]
    | some v => right; exact ⟨v, by simp [ho]⟩
  · exact ⟨rfl, .inl rfl, id, fun g hg => absurd (((running_iff s).mp hr).1.symm.trans hg) (by simp)⟩

/-! ## Frames -/

/-- `exec` answers the state with the effect committed or with the fault recorded. -/
theorem exec_next_cases {i : Instr} {s t : State} (h : exec i s = .next t) :
    (∃ e, effectOf hardware i s = .ok e ∧ t = commit e s) ∨ ∃ f, t = raise f s := by
  cases (exec_eq_settle i s).symm.trans h
  obtain ⟨e, he, ht⟩ | ⟨f, -, ht⟩ := settle_cases (effectOf hardware i s) s
  · exact .inl ⟨e, he, ht⟩
  · exact .inr ⟨f, ht⟩

/-- A write through an OUT operand leaves every cell but the one at its address. -/
theorem read_writeMem_outAddr {P : Params} {s : State} {d : OutOperand} {v : Int} (hd : outLegal P s d = true) {x : Nat}
    (hx : (x : Int) ≠ outAddr s d) :
    Mem.read (writeMem s.mem (some ((outAddr s d).toNat, v))) x = Mem.read s.mem x := by
  have hnonneg := nonneg_of_legalAddr hd
  exact read_write_other s.mem v (by omega)

/-- A storing action writes the cell at the address of its OUT operand, which is legal. -/
theorem effectOf_write_of_storing {P : Params} {s : State} {a b : InOperand} {d : OutOperand} {i : Instr} {e : Effect}
    (hi : i ∈ [Instr.add a b d, .mul a b d, .lt a b d, .eq a b d, .inp d]) (h : effectOf P i s = .ok e) :
    outLegal P s d = true ∧ ∃ v, e.write = some ((outAddr s d).toNat, v) := by
  simp only [List.mem_cons, List.not_mem_nil, or_false] at hi
  obtain rfl | rfl | rfl | rfl | rfl := hi
  case inr.inr.inr.inr =>
    obtain ⟨v, -, -, hd, rfl⟩ := inEffect_ok h
    exact ⟨hd, v, rfl⟩
  all_goals
    obtain ⟨-, -, hd, rfl⟩ := effectF3_ok h
    exact ⟨hd, _, rfl⟩

theorem opcode_of_storing {a b : InOperand} {d : OutOperand} {i : Instr}
    (hi : i ∈ [Instr.add a b d, .mul a b d, .lt a b d, .eq a b d, .inp d]) :
    i.opcode ∈ [Opcode.add, .mul, .lt, .eq, .inp] :=
  List.mem_map_of_mem (f := Instr.opcode) hi

/-- Settles O36: a storing action fills in no part of its effect but the write, and a fault changes nothing else. -/
theorem storingInstructionsFrame : Obligations.StoringInstructionsFrame := by
  intro s t a b d i hi h
  obtain ⟨e, he, rfl⟩ | ⟨f, rfl⟩ := exec_next_cases h
  · obtain ⟨hd, v, hwrite⟩ := effectOf_write_of_storing hi he
    obtain ⟨hrb, hout, hhalts, -⟩ := effectOf_writers he
    have hop := opcode_of_storing hi
    rw [commit_rb, commit_inr, commit_outq, commit_halted, commit_fault, commit_mem, hwrite,
      hrb (fun h => by simp [h] at hop), hout (fun h => by simp [h] at hop), hhalts (fun h => by simp [h] at hop)]
    exact ⟨rfl, rfl, List.append_nil _, Bool.or_false _, .inl rfl, fun x => read_writeMem_outAddr hd⟩
  · exact ⟨rfl, rfl, rfl, rfl, .inr ⟨f, rfl⟩, fun _ _ => rfl⟩

/-- Among the five that store nothing, the opcode tells which of them an instruction is. -/
theorem eq_of_opcode_of_nonStoring {a g : InOperand} {i : Instr}
    (hi : i ∈ [Instr.out a, .jnz a g, .jz a g, .arb a, .hlt]) :
    (i.opcode = .arb → i = .arb a) ∧ (i.opcode = .out → i = .out a) ∧ (i.opcode = .hlt → i = .hlt) ∧
      i.opcode ∉ [Opcode.add, .mul, .inp, .lt, .eq] := by
  simp only [List.mem_cons, List.not_mem_nil, or_false] at hi
  obtain rfl | rfl | rfl | rfl | rfl := hi <;> simp [Instr.opcode]

/-- Settles O37: an action of these five writes no cell, and of the other elements its own alone. -/
theorem nonStoringInstructionsFrame : Obligations.NonStoringInstructionsFrame := by
  intro s t a g i hi h
  obtain ⟨e, he, rfl⟩ | ⟨f, rfl⟩ := exec_next_cases h
  · obtain ⟨hrb, hout, hhalts, hwrite⟩ := effectOf_writers he
    obtain ⟨harb, hop, hhlt, hstores⟩ := eq_of_opcode_of_nonStoring hi
    rw [commit_mem, commit_rb, commit_inr, commit_outq, commit_halted, commit_fault, hwrite hstores]
    refine ⟨fun _ => rfl, rfl, fun hne => ?_, fun hne => ?_, fun hne => ?_, .inl rfl⟩
    · rw [hrb (mt harb hne)]; rfl
    · rw [hout (mt hop hne)]; exact List.append_nil _
    · rw [hhalts (mt hhlt hne)]; exact Bool.or_false _
  · exact ⟨fun _ => rfl, rfl, fun _ => rfl, fun _ => rfl, fun _ => rfl, .inr ⟨f, rfl⟩⟩

/-! ## Memory (R60, R61, R76) -/

/-- A canonical memory lists no cell that reads 0. -/
theorem read_head_ne_zero {b : Nat} {w : Int} {m : Mem} (h : Mem.wf ((b, w) :: m) = true) :
    Mem.read ((b, w) :: m) b ≠ 0 := by
  simp only [Mem.wf, Bool.and_eq_true, decide_eq_true_eq] at h
  rw [Mem.read, if_pos rfl]
  exact h.1

/-- Two canonical memories that do not begin at the same address do not read alike at the lower one. -/
theorem not_lt_head_of_read_eq {b c : Nat} {w x : Int} {m n : Mem} (hm : Mem.wf ((b, w) :: m) = true)
    (hn : Mem.wf ((c, x) :: n) = true) (h : Mem.read ((b, w) :: m) b = Mem.read ((c, x) :: n) b) : ¬ b < c := by
  intro hlt
  simp only [Mem.wf, Bool.and_eq_true] at hn
  obtain ⟨-, hrest⟩ := hn
  refine read_head_ne_zero hm (h.trans ?_)
  rw [Mem.read, if_neg hlt.ne, read_of_le hrest hlt.le]

/-- Settles O38, along both lists: their heads are the same cell, and neither tail reads anything at its address. -/
theorem memoriesThatReadAlikeAreEqual : Obligations.MemoriesThatReadAlikeAreEqual := by
  intro m
  induction m with
  | nil =>
    rintro (_ | ⟨⟨c, x⟩, n⟩) - hn h
    · rfl
    · exact absurd (h c).symm (read_head_ne_zero hn)
  | cons cell m ih =>
    obtain ⟨b, w⟩ := cell
    rintro (_ | ⟨⟨c, x⟩, n⟩) hm hn h
    · exact absurd (h b) (read_head_ne_zero hm)
    · have hbc : b = c := le_antisymm (not_lt.mp (not_lt_head_of_read_eq hn hm (h c).symm))
        (not_lt.mp (not_lt_head_of_read_eq hm hn (h b)))
      subst hbc
      have hwx : w = x := by simpa [Mem.read] using h b
      subst hwx
      simp only [Mem.wf, Bool.and_eq_true] at hm hn
      obtain ⟨-, hm⟩ := hm
      obtain ⟨-, hn⟩ := hn
      rw [ih n (wf_of_wfAbove hm) (wf_of_wfAbove hn) fun a => ?_]
      by_cases hab : a = b
      · rw [hab, read_of_le hm le_rfl, read_of_le hn le_rfl]
      · simpa [Mem.read, hab] using h a

/-- Settles O41: the commit has written the cell before the next fetch reads it. -/
theorem storeIsSeenByTheNextFetch : Obligations.StoreIsSeenByTheNextFetch := by
  intro P s e v hm hpc hw
  rw [fetchCell_of_legal hpc, commit_mem, commit_pc, hw, writeMem_some, read_write_same hm]

/-! ## The lookup of the pseudocode (R100, R124) -/

/-- The row of the table that an opcode names. -/
def tableRow (op : Opcode) : TableRow :=
  ⟨opcodeNumber op, op, opcodeShape op, opcodeManagesPc op⟩

theorem refLookup_of_opcodeField {P : Params} {op : Opcode} {cell : Int} (h : opcodeField P cell = opcodeNumber op) :
    refLookup P cell = .ok (tableRow op) := by
  rw [refLookup, h]
  cases op <;> rfl

theorem lookup_number_of_mem_opcodeTable : ∀ r ∈ opcodeTable, lookup r.number = some r.opcode := by decide

theorem refLookup_of_lookup_none {P : Params} {cell : Int} (h : lookup (opcodeField P cell) = none) :
    refLookup P cell = .error (.unknownOpcode cell) := by
  have hfind : opcodeTable.find? (fun r => r.number == opcodeField P cell) = none := by
    refine List.find?_eq_none.mpr fun r hr hnumber => ?_
    have hrow := lookup_number_of_mem_opcodeTable r hr
    rw [eq_of_beq hnumber, h] at hrow
    cases hrow
  rw [refLookup, hfind]

/-! ## The mode check of the pseudocode (R102, R125) -/

theorem refUnusedSet_eq (P : Params) (n : Nat) (cell : Int) :
    refUnusedSet P n cell = !unusedDigitsZero P n cell := by
  have hdigit : ∀ k, (decide (n < k) && modeField P k cell != 0) =
      !(decide (k ≤ n) || decide (modeField P k cell = 0)) := by
    intro k
    rw [Bool.not_or, ← decide_not, ← decide_not]
    simp only [not_le, bne, beq_eq_decide, decide_not]
  simp only [refUnusedSet, unusedDigitsZero, hdigit, Bool.not_and, List.not_all_eq_any_not]
  rfl

theorem checkUnused_ok {P : Params} {n : Nat} {cell : Int} :
    checkUnused P n cell = .ok () ↔ (P.unusedDigits == .fault && refUnusedSet P n cell) = false := by
  rw [refUnusedSet_eq]
  cases hu : P.unusedDigits <;> cases hz : unusedDigitsZero P n cell <;> simp [checkUnused, hu, hz]

theorem refCheckModes_ok {P : Params} {row : TableRow} {cell : Int} :
    refCheckModes P row cell = .ok () ↔
      refModesLegal P cell 1 row.shape = true ∧ checkUnused P row.shape.length cell = .ok () := by
  rw [checkUnused_ok, refCheckModes]
  cases hm : refModesLegal P cell 1 row.shape with
  | false => simp
  | true => split_ifs <;> simp_all

theorem refCheckModes_of_not_ok {P : Params} {row : TableRow} {cell : Int} (h : refCheckModes P row cell ≠ .ok ()) :
    refCheckModes P row cell = .error (.invalidAddressingMode cell) := by
  unfold refCheckModes at h ⊢
  split_ifs at h ⊢
  · rfl
  · rfl
  · exact absurd rfl h

theorem exists_inOperand {mode : Int} (h : modeLegal .input mode = true) (raw : Int) :
    ∃ o : InOperand, mode = inModeDigit o ∧ raw = o.raw := by
  simp only [modeLegal, Bool.or_eq_true, beq_iff_eq] at h
  obtain (rfl | rfl) | rfl := h
  · exact ⟨.position raw, rfl, rfl⟩
  · exact ⟨.immediate raw, rfl, rfl⟩
  · exact ⟨.relative raw, rfl, rfl⟩

theorem exists_outOperand {mode : Int} (h : modeLegal .output mode = true) (raw : Int) :
    ∃ o : OutOperand, mode = outModeDigit o ∧ raw = o.raw := by
  simp only [modeLegal, Bool.or_eq_true, beq_iff_eq] at h
  obtain rfl | rfl := h
  · exact ⟨.position raw, rfl, rfl⟩
  · exact ⟨.relative raw, rfl, rfl⟩

/-- Where the mode check passes, the operands decode. -/
theorem decodeOperands_of_refCheckModes {P : Params} {op : Opcode} {cell : Int}
    (h : refCheckModes P (tableRow op) cell = .ok ()) (p1 p2 p3 : Int) :
    ∃ i, decodeOperands P op cell p1 p2 p3 = .ok i := by
  obtain ⟨hmodes, hu⟩ := refCheckModes_ok.mp h
  cases op with
  | add | mul | lt | eq =>
    obtain ⟨ha, hb, hd⟩ := by simpa [tableRow, opcodeShape, refModesLegal] using hmodes
    obtain ⟨a, ha⟩ := exists_inOperand ha p1
    obtain ⟨b, hb⟩ := exists_inOperand hb p2
    obtain ⟨d, hd⟩ := exists_outOperand hd p3
    exact ⟨_, decodeF3_ok.mpr ⟨a, ha, b, hb, d, hd, hu, rfl⟩⟩
  | jnz | jz =>
    obtain ⟨ha, hb⟩ := by simpa [tableRow, opcodeShape, refModesLegal] using hmodes
    obtain ⟨a, ha⟩ := exists_inOperand ha p1
    obtain ⟨b, hb⟩ := exists_inOperand hb p2
    exact ⟨_, decodeF2_ok.mpr ⟨a, ha, b, hb, hu, rfl⟩⟩
  | out | arb =>
    obtain ⟨a, ha⟩ := exists_inOperand (by simpa [tableRow, opcodeShape, refModesLegal] using hmodes) p1
    exact ⟨_, decodeF1I_ok.mpr ⟨a, ha, hu, rfl⟩⟩
  | inp =>
    obtain ⟨d, hd⟩ := exists_outOperand (by simpa [tableRow, opcodeShape, refModesLegal] using hmodes) p1
    exact ⟨_, decodeF1O_ok.mpr ⟨d, hd, hu, rfl⟩⟩
  | hlt => exact ⟨.hlt, except_bind_ok.mpr ⟨(), hu, rfl⟩⟩

/-! ## Lookup and mode check against the decoder -/

/-- `Lookup`, then `CheckModes`: what R120 does with a cell before it touches a parameter. -/
def refDecode (P : Params) (cell : Int) : Except Fault TableRow := do
  let row ← refLookup P cell
  refCheckModes P row cell
  return row

theorem opcodeShape_length (i : Instr) : (opcodeShape i.opcode).length = i.rawParams.length := by
  cases i <;> rfl

theorem refDecode_of_decode_ok {P : Params} {cell p1 p2 p3 : Int} {i : Instr} (h : decode P cell p1 p2 p3 = .ok i) :
    refDecode P cell = .ok (tableRow i.opcode) := by
  obtain ⟨hop, -, -, hu⟩ := decode_ok.mp h
  have hmodes := refModesLegal_of_decodeOperands_ok ((decode_of_opcodeField hop).symm.trans h)
  rw [← opcodeShape_length] at hu
  exact except_bind_ok.mpr ⟨_, refLookup_of_opcodeField hop,
    except_bind_ok.mpr ⟨(), refCheckModes_ok.mpr ⟨hmodes, hu⟩, rfl⟩⟩

theorem refDecode_of_decode_error {P : Params} {cell p1 p2 p3 : Int} {r : Reject}
    (h : decode P cell p1 p2 p3 = .error r) : refDecode P cell = .error (rejectFault r) := by
  cases hl : lookup (opcodeField P cell) with
  | none =>
    cases (decode_of_lookup_none hl).symm.trans h
    exact except_bind_error.mpr (.inl (refLookup_of_lookup_none hl))
  | some op =>
    have hop := lookup_eq_some.mp hl
    have hoperands := (decode_of_opcodeField hop).symm.trans h
    have hmodes : refCheckModes P (tableRow op) cell ≠ .ok () := by
      intro hok
      obtain ⟨i, hi⟩ := decodeOperands_of_refCheckModes hok p1 p2 p3
      cases hi.symm.trans hoperands
    cases decodeOperands_error hoperands
    exact except_bind_error.mpr (.inr ⟨_, refLookup_of_opcodeField hop,
      except_bind_error.mpr (.inl (refCheckModes_of_not_ok hmodes))⟩)

/-! ## The parameters of the pseudocode (R126 to R130) -/

theorem refResolveIn_eq (P : Params) (s : State) (o : InOperand) :
    refResolveIn P s o.raw (inModeDigit o) = resolveIn P s o := by
  cases o <;> rfl

/-- The pseudocode binds the address itself, the model the cell at it. -/
theorem refResolveOut_eq (P : Params) (s : State) (o : OutOperand) :
    refResolveOut P s o.raw (outModeDigit o) = resolveOut P s o >>= fun _ => .ok (outAddr s o) := by
  have hcell : (if legalAddr P (outAddr s o) then .ok (outAddr s o) else .error (.invalidAddress (outAddr s o))) =
      resolveOut P s o >>= fun _ => .ok (outAddr s o) := by
    unfold resolveOut legalCell
    split <;> rfl
  rw [← hcell]
  cases o <;> rfl

theorem refParam_input {P : Params} {s : State} {cell : Int} {k : Nat} {o : InOperand}
    (hm : modeField P k cell = inModeDigit o) (hp : paramCell s k = o.raw) :
    refParam P s cell k .input = fetchIn P s k o := by
  have hresolve := refResolveIn_eq P s o
  rw [← hm, ← hp] at hresolve
  unfold refParam refFetchParam fetchIn
  rw [checkParam_eq]
  split
  · exact hresolve
  · rfl

theorem refParam_output {P : Params} {s : State} {cell : Int} {k : Nat} {o : OutOperand}
    (hm : modeField P k cell = outModeDigit o) (hp : paramCell s k = o.raw) :
    refParam P s cell k .output = fetchOut P s k o >>= fun _ => .ok (outAddr s o) := by
  have hresolve := refResolveOut_eq P s o
  rw [← hm, ← hp] at hresolve
  unfold refParam refFetchParam fetchOut
  rw [checkParam_eq]
  split
  · exact hresolve
  · rfl

/-! ## The actions of the pseudocode (R132 to R136) -/

/-- What R120 does after the mode check. -/
def refExecute (P : Params) (s : State) (op : Opcode) : Except Fault State := do
  let bound ← refParams P s (cellAtPc s) 1 (opcodeShape op)
  refAction P s (cellAtPc s) op bound

theorem except_map_bind {α β γ ε : Type} (g : β → γ) (x : Except ε α) (f : α → Except ε β) :
    (x >>= f).map g = x >>= fun a => (f a).map g := by
  cases x <;> rfl

/-- After the address check the cell of an OUT operand is that of the address the pseudocode binds. -/
theorem fetchOut_bind_congr {P : Params} {s : State} {k : Nat} {d : OutOperand} {α : Type}
    {f g : Nat → Except Fault α} (h : f (outAddr s d).toNat = g (outAddr s d).toNat) :
    fetchOut P s k d >>= f = fetchOut P s k d >>= g := by
  cases hd : fetchOut P s k d with
  | error => rfl
  | ok c =>
    obtain ⟨-, -, rfl⟩ := fetchOut_ok.mp hd
    exact h

section
variable {P : Params} {s : State} {op : Opcode} {a b t : InOperand} {d : OutOperand}

/-- Format `F3`: the loop of R120 binds what the three operands resolve to, and the pseudocode of the opcode stores the
checked result. -/
theorem refExecute_F3 {f : Int → Int → Int} (hshape : opcodeShape op = [.input, .input, .output])
    (ha : refParam P s (cellAtPc s) 1 .input = fetchIn P s 1 a)
    (hb : refParam P s (cellAtPc s) 2 .input = fetchIn P s 2 b)
    (hd : refParam P s (cellAtPc s) 3 .output = fetchOut P s 3 d >>= fun _ => .ok (outAddr s d))
    (haction : ∀ x y z : Int, refAction P s (cellAtPc s) op [x, y, z] = (do
      let r ← checkedVal P s (f x y)
      let next ← advance P s op
      return { s with mem := Mem.write s.mem z.toNat r, pc := next })) :
    refExecute P s op = (effectF3 P op f a b d s).map fun e => commit e s := by
  simp only [refExecute, hshape, refParams, ha, hb, hd, effectF3, except_map_bind, bind_assoc]
  refine bind_congr fun x => bind_congr fun y => fetchOut_bind_congr ?_
  refine (haction x y _).trans (bind_congr fun r => bind_congr fun next => ?_)
  exact congrArg Except.ok (commit_of_write s _ _ _).symm

/-- Format `F2`: both jumps bind both operands before their test. -/
theorem refExecute_jump {taken : Int → Bool} (hshape : opcodeShape op = [.input, .input])
    (ha : refParam P s (cellAtPc s) 1 .input = fetchIn P s 1 a)
    (ht : refParam P s (cellAtPc s) 2 .input = fetchIn P s 2 t)
    (haction : ∀ x y : Int, refAction P s (cellAtPc s) op [x, y] =
      if taken x then .ok { s with pc := y } else advance P s op >>= fun next => .ok { s with pc := next }) :
    refExecute P s op = (effectJump P op taken a t s).map fun e => commit e s := by
  simp only [refExecute, hshape, refParams, ha, ht, effectJump, except_map_bind, bind_assoc]
  refine bind_congr fun x => bind_congr fun y => (haction x y).trans ?_
  split
  · exact congrArg Except.ok (commit_of_nextPc s _).symm
  · rw [except_map_bind]
    exact bind_congr fun next => congrArg Except.ok (commit_of_nextPc s _).symm

theorem refAction_jnz (x y : Int) : refAction P s (cellAtPc s) .jnz [x, y] =
    if !isZero x then .ok { s with pc := y } else advance P s .jnz >>= fun next => .ok { s with pc := next } := by
  by_cases hx : x = 0
  · subst hx; rfl
  · rw [if_pos (by simp [isZero, hx])]
    exact if_pos hx

theorem refAction_jz (x y : Int) : refAction P s (cellAtPc s) .jz [x, y] =
    if isZero x then .ok { s with pc := y } else advance P s .jz >>= fun next => .ok { s with pc := next } := by
  by_cases hx : x = 0
  · subst hx; rfl
  · rw [if_neg (by simp [isZero, hx])]
    exact if_neg hx

theorem refExecute_out (ha : refParam P s (cellAtPc s) 1 .input = fetchIn P s 1 a) :
    refExecute P s .out = (outEffect P a s).map fun e => commit e s := by
  simp only [refExecute, opcodeShape, refParams, ha, outEffect, except_map_bind, bind_assoc]
  exact bind_congr fun x => bind_congr fun next => congrArg Except.ok (commit_of_output s _ _).symm

theorem refExecute_arb (ha : refParam P s (cellAtPc s) 1 .input = fetchIn P s 1 a) :
    refExecute P s .arb = (arbEffect P a s).map fun e => commit e s := by
  simp only [refExecute, opcodeShape, refParams, ha, arbEffect, except_map_bind, bind_assoc]
  exact bind_congr fun x => bind_congr fun b => bind_congr fun next => congrArg Except.ok (commit_of_newRb s _ _).symm

theorem refAction_inp (x : Int) : refAction P s (cellAtPc s) .inp [x] = (do
    let v ← readInput s
    let next ← advance P s .inp
    return { s with mem := Mem.write s.mem x.toNat v, pc := next }) := by
  simp only [refAction, readInput]
  cases s.inr <;> rfl

theorem refExecute_inp (hd : refParam P s (cellAtPc s) 1 .output = fetchOut P s 1 d >>= fun _ => .ok (outAddr s d)) :
    refExecute P s .inp = (inEffect P d s).map fun e => commit e s := by
  simp only [refExecute, opcodeShape, refParams, hd, inEffect, except_map_bind, bind_assoc]
  refine fetchOut_bind_congr ((refAction_inp _).trans ?_)
  exact bind_congr fun v => bind_congr fun next => congrArg Except.ok (commit_of_write s _ _ _).symm

end

theorem refExecute_hlt (P : Params) (s : State) : refExecute P s .hlt = (hltEffect s).map fun e => commit e s :=
  congrArg Except.ok (settle_hltEffect s).symm

/-- The pseudocode does not check the result of a comparison: 0 and 1 are values of every width R5 allows. -/
theorem checkedVal_truthValue {P : Params} (hP : P.legal = true) (s : State) (p : Prop) [Decidable p] :
    checkedVal P s (truthValue (decide p)) = .ok (if p then 1 else 0) := by
  rw [checkedVal, if_pos (inVal_truthValue hP _), truthValue_decide]

/-- What the operands at `PC` decode to, the pseudocode of the opcode runs. -/
theorem refExecute_of_decodeOperands {P : Params} {s : State} {op : Opcode} {i : Instr} (hP : P.legal = true)
    (h : decodeOperands P op (cellAtPc s) (paramCell s 1) (paramCell s 2) (paramCell s 3) = .ok i) :
    refExecute P s op = (effectOf P i s).map fun e => commit e s := by
  cases op with
  | add | mul =>
    obtain ⟨a, ⟨ha, pa⟩, b, ⟨hb, pb⟩, d, ⟨hd, pd⟩, -, rfl⟩ := decodeF3_ok.mp h
    exact refExecute_F3 rfl (refParam_input ha pa) (refParam_input hb pb) (refParam_output hd pd) fun _ _ _ => rfl
  | lt | eq =>
    obtain ⟨a, ⟨ha, pa⟩, b, ⟨hb, pb⟩, d, ⟨hd, pd⟩, -, rfl⟩ := decodeF3_ok.mp h
    refine refExecute_F3 rfl (refParam_input ha pa) (refParam_input hb pb) (refParam_output hd pd) fun x y z => ?_
    simp only [lessThan, equalTo, checkedVal_truthValue hP]
    rfl
  | jnz =>
    obtain ⟨a, ⟨ha, pa⟩, t, ⟨ht, pt⟩, -, rfl⟩ := decodeF2_ok.mp h
    exact refExecute_jump rfl (refParam_input ha pa) (refParam_input ht pt) refAction_jnz
  | jz =>
    obtain ⟨a, ⟨ha, pa⟩, t, ⟨ht, pt⟩, -, rfl⟩ := decodeF2_ok.mp h
    exact refExecute_jump rfl (refParam_input ha pa) (refParam_input ht pt) refAction_jz
  | out =>
    obtain ⟨a, ⟨ha, pa⟩, -, rfl⟩ := decodeF1I_ok.mp h
    exact refExecute_out (refParam_input ha pa)
  | arb =>
    obtain ⟨a, ⟨ha, pa⟩, -, rfl⟩ := decodeF1I_ok.mp h
    exact refExecute_arb (refParam_input ha pa)
  | inp =>
    obtain ⟨d, ⟨hd, pd⟩, -, rfl⟩ := decodeF1O_ok.mp h
    exact refExecute_inp (refParam_output hd pd)
  | hlt =>
    obtain ⟨u, -, hi⟩ := except_bind_ok.mp h
    cases hi
    exact refExecute_hlt P s

theorem refExecute_of_decodeAtPc {P : Params} {s : State} {i : Instr} (hP : P.legal = true)
    (h : decodeAtPc P s = .ok i) : refExecute P s i.opcode = (effectOf P i s).map fun e => commit e s := by
  obtain ⟨hop, -⟩ := decode_ok.mp h
  exact refExecute_of_decodeOperands hP ((decode_of_opcodeField hop).symm.trans h)

/-! ## The step of the pseudocode -/

/-- The phases of R120 at a legal `PC` are the decoding of the cell, then the execution of its opcode. -/
theorem refPhases_of_legal {P : Params} {s : State} (hpc : legalAddr P s.pc = true) :
    refPhases P s = (do
      let row ← refDecode P (cellAtPc s)
      let bound ← refParams P s (cellAtPc s) 1 row.shape
      refAction P s (cellAtPc s) row.opcode bound) := by
  have hfetch : refRead P s s.pc = .ok (cellAtPc s) := if_pos hpc
  simp only [refPhases, hfetch, refDecode, bind_assoc, pure_bind]
  rfl

/-- The phases of R120 leave what the transition commits, and fail as it fails. -/
theorem refPhases_eq_transition {P : Params} (hP : P.legal = true) (s : State) :
    refPhases P s = (transition P s).map fun e => commit e s := by
  cases hpc : legalAddr P s.pc with
  | false =>
    have hread : refRead P s s.pc = .error (.invalidAddress s.pc) := by rw [refRead, hpc, if_neg (by decide)]
    rw [refPhases, hread, transition, fetchInstr_error.mpr (.inl ⟨hpc, rfl⟩)]
    rfl
  | true =>
    rw [refPhases_of_legal hpc]
    cases h : decodeAtPc P s with
    | error r =>
      rw [refDecode_of_decode_error h, transition, fetchInstr_error.mpr (.inr ⟨hpc, r, h, rfl⟩)]
      rfl
    | ok i =>
      rw [refDecode_of_decode_ok h, transition, fetchInstr_ok.mpr ⟨hpc, h⟩]
      exact refExecute_of_decodeAtPc hP h

/-- Settles O14: behind the same two guards, the phases of R120 are the transition. -/
theorem stepRefinesThePseudocode : Obligations.StepRefinesThePseudocode := by
  intro P s hP
  rw [stepCommand, refStep, refPhases_eq_transition hP]
  cases transition P s <;> rfl

/-! ## `run` (R201, R202) -/

theorem runExit_eq_halted {s : State} : runExit s = some .halted ↔ s.Final := by
  cases hf : s.fault <;> cases hh : s.halted <;> simp [runExit, State.Final, hf, hh]

theorem runExit_eq_faulted {s : State} {f : Fault} : runExit s = some (.faulted f) ↔ s.fault = some f := by
  cases hf : s.fault <;> cases hh : s.halted <;> simp [runExit, hf, hh]

theorem run_of_exit {P : Params} {s : State} {r : RunResult} (hx : runExit s = some r) (fuel : Nat) :
    run P fuel s = (s, some r) := by
  cases fuel <;> simp only [run, hx]

/-- What `run` returns is what the state it has reached says. -/
theorem run_result (P : Params) (fuel : Nat) (s : State) : (run P fuel s).2 = runExit (run P fuel s).1 := by
  induction fuel generalizing s with
  | zero => rfl
  | succ fuel ih =>
    cases hx : runExit s with
    | some r => rw [run_of_exit hx, hx]
    | none => rw [run_succ_of_running ((runExit_eq_none s).mp hx), ih]

theorem runExit_of_run {P : Params} {fuel : Nat} {s t : State} {r : Option RunResult} (h : run P fuel s = (t, r)) :
    runExit t = r := by
  have hresult := run_result P fuel s
  rw [h] at hresult
  exact hresult.symm

theorem stepCommand_inr (P : Params) (s : State) : (stepCommand P s).1.inr = s.inr :=
  (stepNeverTakesBack P s).1

theorem run_inr (P : Params) (fuel : Nat) (s : State) : (run P fuel s).1.inr = s.inr :=
  run_of_step (p := fun t => t.inr = s.inr) (fun t ht => (stepCommand_inr P t).trans ht) rfl fuel

/-- Settles O53: no step changes `INR`, and the result is read off the state `run` ends in. -/
theorem runReturnsOnlyAtAnEnd : Obligations.RunReturnsOnlyAtAnEnd := by
  rintro P s t r ⟨fuel, h⟩
  have hx := runExit_of_run h
  refine ⟨?_, ?_, ?_⟩
  · rw [← run_inr P fuel s, h]
  · rintro rfl
    exact runExit_eq_halted.mp hx
  · rintro f rfl
    exact runExit_eq_faulted.mp hx

/-- Fuel adds up: the second part is spent where the first has led. -/
theorem run_add (P : Params) (m n : Nat) (s : State) : run P (m + n) s = run P n (run P m s).1 := by
  induction m generalizing s with
  | zero => rw [Nat.zero_add]; rfl
  | succ m ih =>
    cases hx : runExit s with
    | some r => rw [run_of_exit hx, run_of_exit hx, run_of_exit hx]
    | none =>
      have hr := (runExit_eq_none s).mp hx
      rw [Nat.add_right_comm, run_succ_of_running hr, run_succ_of_running hr, ih]

/-- More fuel does not change what `run` has returned. -/
theorem run_add_of_returned {P : Params} {m : Nat} {s t : State} {r : RunResult} (h : run P m s = (t, some r))
    (n : Nat) : run P (m + n) s = (t, some r) := by
  rw [run_add, h]
  exact run_of_exit (runExit_of_run h) n

/-- Settles O54: with the two amounts of fuel together `run` returns both results. -/
theorem runHasOneResult : Obligations.RunHasOneResult := by
  rintro P s t u r q ⟨m, hm⟩ ⟨n, hn⟩
  have ht := run_add_of_returned hm n
  have hu := run_add_of_returned hn m
  rw [Nat.add_comm] at hu
  cases ht.symm.trans hu
  exact ⟨rfl, rfl⟩

/-! ## `run_until_output` (R204 to R206) -/

/-- Settles O51: the end state bears out what is returned. -/
theorem runUntilOutputReturnsTheNewElement : Obligations.RunUntilOutputReturnsTheNewElement :=
  fun _ _ _ => ⟨fun _ h => outputReturns_reports h, fun _ h => outputReturns_reports h⟩

/-- What a step of a running state is to the loop of R204: the end of the run, an output, or a silent step after which
the machine runs on. -/
theorem step_cases_of_running (P : Params) {s : State} (hr : running s = true) :
    ∃ t q, stepCommand P s = (t, q) ∧
      ((∃ r, outputExit s.outq.length t q = some (asOutputResult r) ∧ runExit t = some r ∧ t.outq = s.outq) ∨
        (∃ v, outputExit s.outq.length t q = some (.output v) ∧ t.outq = s.outq ++ [v]) ∨
        (outputExit s.outq.length t q = none ∧ running t = true ∧ t.outq = s.outq)) := by
  cases ht : transition P s with
  | error f => exact ⟨_, _, stepCommand_of_transition_error hr ht, .inl ⟨.faulted f, rfl, rfl, rfl⟩⟩
  | ok e =>
    refine ⟨_, _, stepCommand_of_transition_ok hr ht, ?_⟩
    have hfault : (commit e s).fault = none := ((running_iff s).mp hr).1
    cases ho : e.output with
    | some v => exact .inr (.inl ⟨v, outputExit_commit_output ho, by simp [ho]⟩)
    | none =>
      have hq : (commit e s).outq = s.outq := by simp [ho]
      rw [outputExit_commit_silent ho]
      cases hh : (commit e s).halted with
      | true => exact .inl ⟨.halted, rfl, runExit_eq_halted.mpr ⟨hh, hfault⟩, hq⟩
      | false => exact .inr (.inr ⟨rfl, (running_iff _).mpr ⟨hfault, hh⟩, hq⟩)

theorem outputReturns_of_exit {P : Params} {s t : State} {q : StepResult} {r : OutputResult} (hr : running s = true)
    (hs : stepCommand P s = (t, q)) (hx : outputExit s.outq.length t q = some r) : OutputReturns P s t r :=
  ⟨1, (runUntilOutput_of_running hr 1).trans (outputLoop_of_exit hs hx)⟩

/-- A silent step before a call does not change what the call returns. -/
theorem outputReturns_of_silent_step {P : Params} {s t u : State} {q : StepResult} {r : OutputResult}
    (hr : running s = true) (hs : stepCommand P s = (t, q)) (hx : outputExit s.outq.length t q = none)
    (ht : running t = true) (hq : t.outq = s.outq) (h : OutputReturns P t u r) : OutputReturns P s u r := by
  obtain ⟨fuel, h⟩ := h
  refine ⟨fuel + 1, ?_⟩
  rw [runUntilOutput_of_running hr, outputLoop_of_no_exit hs hx, ← hq, ← runUntilOutput_of_running ht, h]

/-- In a state that ends a run, `run_until_output` answers that end. -/
theorem outputReturns_of_runExit {P : Params} {s : State} {r : RunResult} (hx : runExit s = some r) :
    OutputReturns P s s (asOutputResult r) := by
  cases r with
  | halted => exact ⟨0, runUntilOutput_of_final (runExit_eq_halted.mp hx) 0⟩
  | faulted f => exact ⟨0, runUntilOutput_of_fault (runExit_eq_faulted.mp hx) 0⟩

/-! ## `run` and repeated `run_until_output` (R207) -/

theorem outputSession_nil {P : Params} {s t : State} {r : RunResult} (h : OutputReturns P s t (asOutputResult r)) :
    OutputSession P [] s t (asOutputResult r) :=
  ⟨h, by cases r <;> nofun⟩

theorem outputSession_of_silent_step {P : Params} {s t u : State} {q : StepResult} {r : OutputResult} {vs : List Int}
    (hr : running s = true) (hs : stepCommand P s = (t, q)) (hx : outputExit s.outq.length t q = none)
    (ht : running t = true) (hq : t.outq = s.outq) (h : OutputSession P vs t u r) : OutputSession P vs s u r := by
  cases vs with
  | nil => exact ⟨outputReturns_of_silent_step hr hs hx ht hq h.1, h.2⟩
  | cons v vs =>
    obtain ⟨w, hw, hrest⟩ := h
    exact ⟨w, outputReturns_of_silent_step hr hs hx ht hq hw, hrest⟩

/-- A `run` that returns is a session: each step ends it, ends a call of it, or belongs to a call. -/
theorem outputSession_of_run {P : Params} {fuel : Nat} {s t : State} {r : RunResult} (h : run P fuel s = (t, some r)) :
    ∃ vs, OutputSession P vs s t (asOutputResult r) ∧ t.outq = s.outq ++ vs := by
  induction fuel generalizing s with
  | zero =>
    obtain ⟨rfl, hx⟩ := Prod.mk.inj (h : (s, runExit s) = (t, some r))
    exact ⟨[], outputSession_nil (outputReturns_of_runExit hx), (List.append_nil _).symm⟩
  | succ fuel ih =>
    cases hx : runExit s with
    | some q =>
      cases (run_of_exit hx _).symm.trans h
      exact ⟨[], outputSession_nil (outputReturns_of_runExit hx), (List.append_nil _).symm⟩
    | none =>
      have hr := (runExit_eq_none s).mp hx
      obtain ⟨u, q, hs, hcases⟩ := step_cases_of_running P hr
      rw [run_succ_of_running hr, hs] at h
      obtain ⟨r', hexit, hend, hq⟩ | ⟨v, hexit, hq⟩ | ⟨hexit, hu, hq⟩ := hcases
      · cases (run_of_exit hend _).symm.trans h
        exact ⟨[], outputSession_nil (outputReturns_of_exit hr hs hexit), by rw [hq, List.append_nil]⟩
      · obtain ⟨vs, hsession, ht⟩ := ih h
        exact ⟨v :: vs, ⟨u, outputReturns_of_exit hr hs hexit, hsession⟩, by simp [ht, hq]⟩
      · obtain ⟨vs, hsession, ht⟩ := ih h
        exact ⟨vs, outputSession_of_silent_step hr hs hexit hu hq hsession, by rw [ht, hq]⟩

/-- One unit of fuel is one step, also of a machine that is not running. -/
theorem run_succ_state (P : Params) (fuel : Nat) (s : State) :
    (run P (fuel + 1) s).1 = (run P fuel (stepCommand P s).1).1 := by
  cases hr : running s with
  | true => rw [run_succ_of_running hr]
  | false => rw [stepCommand_of_not_running hr, run_of_not_running hr, run_of_not_running hr]

/-- Where the loop of R204 is, `run` comes by. -/
theorem outputLoop_reached_by_run (P : Params) (len fuel : Nat) (s : State) :
    ∃ m, (run P m s).1 = (outputLoop P len fuel s).1 := by
  induction fuel generalizing s with
  | zero => exact ⟨0, rfl⟩
  | succ fuel ih =>
    rcases hs : stepCommand P s with ⟨t, q⟩
    cases hx : outputExit len t q with
    | some r => exact ⟨1, by rw [run_succ_state, hs, outputLoop_of_exit hs hx]; rfl⟩
    | none =>
      obtain ⟨m, hm⟩ := ih t
      exact ⟨m + 1, by rw [run_succ_state, hs, outputLoop_of_no_exit hs hx, hm]⟩

theorem outputReturns_reached_by_run {P : Params} {s t : State} {r : OutputResult} (h : OutputReturns P s t r) :
    ∃ m, (run P m s).1 = t := by
  obtain ⟨fuel, h⟩ := h
  cases hr : running s with
  | false =>
    have ht := runUntilOutput_of_not_running (P := P) hr fuel
    rw [h] at ht
    exact ⟨0, ht.symm⟩
  | true =>
    obtain ⟨m, hm⟩ := outputLoop_reached_by_run P s.outq.length fuel s
    exact ⟨m, by rw [hm, ← runUntilOutput_of_running hr, h]⟩

theorem runExit_of_reports {outq : List Int} {t : State} {r : RunResult} (h : Reports outq t (asOutputResult r)) :
    runExit t = some r := by
  cases r with
  | halted => exact runExit_eq_halted.mpr h.2
  | faulted f => exact runExit_eq_faulted.mpr h.2

theorem runReturns_of_reached {P : Params} {m : Nat} {s t u : State} {r : RunResult} (hm : (run P m s).1 = u)
    (h : RunReturns P u t r) : RunReturns P s t r := by
  obtain ⟨n, hn⟩ := h
  exact ⟨m + n, by rw [run_add, hm, hn]⟩

theorem runReturns_of_outputSession {P : Params} {vs : List Int} {s t : State} {r : RunResult}
    (h : OutputSession P vs s t (asOutputResult r)) : RunReturns P s t r := by
  induction vs generalizing s with
  | nil =>
    obtain ⟨hcall, -⟩ := h
    obtain ⟨m, hm⟩ := outputReturns_reached_by_run hcall
    exact runReturns_of_reached hm ⟨0, run_of_exit (runExit_of_reports (outputReturns_reports hcall)) 0⟩
  | cons v vs ih =>
    obtain ⟨u, hcall, hrest⟩ := h
    obtain ⟨m, hm⟩ := outputReturns_reached_by_run hcall
    exact runReturns_of_reached hm (ih hrest)

/-- Settles O55: forth along the steps of `run`, back along the calls of the session. -/
theorem runIsRepeatedRunUntilOutput : Obligations.RunIsRepeatedRunUntilOutput :=
  fun _ _ _ _ => ⟨fun ⟨_, h⟩ => outputSession_of_run h, fun ⟨_, h, _⟩ => runReturns_of_outputSession h⟩

/-! ## A loop in progress, and the commands after it (R209) -/

/-- The loop goes on only in a running state with the `OUTQ` of the call. -/
theorem outputLoop_in_progress {P : Params} {fuel : Nat} {s t : State} (hr : running s = true)
    (h : outputLoop P s.outq.length fuel s = (t, none)) : running t = true ∧ t.outq = s.outq := by
  induction fuel generalizing s with
  | zero => cases h; exact ⟨hr, rfl⟩
  | succ fuel ih =>
    obtain ⟨u, q, hs, ⟨r, hexit, -⟩ | ⟨v, hexit, -⟩ | ⟨hexit, hu, hq⟩⟩ := step_cases_of_running P hr
    · cases (outputLoop_of_exit hs hexit).symm.trans h
    · cases (outputLoop_of_exit hs hexit).symm.trans h
    · rw [outputLoop_of_no_exit hs hexit, ← hq] at h
      rw [← hq]
      exact ih hu h

theorem runUntilOutput_inr (P : Params) (fuel : Nat) (s : State) : (runUntilOutput P fuel s).1.inr = s.inr :=
  runUntilOutput_of_step (p := fun t => t.inr = s.inr) (fun t ht => (stepCommand_inr P t).trans ht) rfl fuel

theorem runUntilOutput_in_progress {P : Params} {fuel : Nat} {s t : State} (h : runUntilOutput P fuel s = (t, none)) :
    running t = true ∧ t.outq = s.outq := by
  cases hx : runExit s with
  | none =>
    have hr := (runExit_eq_none s).mp hx
    exact outputLoop_in_progress hr ((runUntilOutput_of_running hr fuel).symm.trans h)
  | some r =>
    cases r with
    | halted => cases (runUntilOutput_of_final (runExit_eq_halted.mp hx) fuel).symm.trans h
    | faulted f => cases (runUntilOutput_of_fault (runExit_eq_faulted.mp hx) fuel).symm.trans h

theorem commands_of_not_returned {P : Params} {c : Command} {s t : State} {r : Response} (h : command P c s = (t, r))
    (hr : r.returned = false) (cs : List Command) : commands P (c :: cs) s = (t, [r]) := by
  simp [commands, h, hr]

theorem commands_of_returned {P : Params} {c : Command} {s t : State} {r : Response} (h : command P c s = (t, r))
    (hr : r.returned = true) (cs : List Command) :
    commands P (c :: cs) s = ((commands P cs t).1, r :: (commands P cs t).2) := by
  simp [commands, h, hr]

/-- Settles O60: a loop without an answer is in a running state, and `commands` ends with it. -/
theorem controllerHasNoMoveInsideALoop : Obligations.ControllerHasNoMoveInsideALoop := by
  intro P s t cs
  refine ⟨fun fuel h => ⟨?_, ?_, ?_⟩, fun fuel h => ?_, fun c r h hr => commands_of_returned h hr cs⟩
  · exact (runExit_eq_none t).mp (runExit_of_run h)
  · rw [← run_inr P fuel s, h]
  · exact commands_of_not_returned (by simp [command, h]) rfl cs
  · obtain ⟨hr, hq⟩ := runUntilOutput_in_progress h
    refine ⟨hr, ?_, hq, commands_of_not_returned (by simp [command, h]) rfl cs⟩
    rw [← runUntilOutput_inr P fuel s, h]

/-! ## The ports (R208, R210, R260, R261) -/

theorem command_writeInput_of_inVal {P : Params} {v : Int} (hv : inVal P v = true) (s : State) :
    command P (.writeInput v) s = ({ s with inr := some v }, .done) := by
  simp [command, writeInput, hv, portAnswer]

theorem command_writeInput_of_outside {P : Params} {v : Int} (hv : inVal P v = false) (s : State) :
    command P (.writeInput v) s = (s, .refused (.inputOutsideVal v)) := by
  simp [command, writeInput, hv, portAnswer]

/-- Settles O58: the check of the value decides between the two. -/
theorem writeInputSetsInrAlone : Obligations.WriteInputSetsInrAlone :=
  fun _ _ s => ⟨fun hv => command_writeInput_of_inVal hv s, fun hv => command_writeInput_of_outside hv s⟩

/-- `write_input` changes at most `INR`. -/
theorem command_writeInput_state (P : Params) (v : Int) (s : State) :
    ∃ x, (command P (.writeInput v) s).1 = { s with inr := x } := by
  cases hv : inVal P v with
  | true => exact ⟨some v, by rw [command_writeInput_of_inVal hv]⟩
  | false => exact ⟨s.inr, by rw [command_writeInput_of_outside hv]⟩

/-- Settles O59: `write_input` is the one command left that writes at all. -/
theorem controllerReadsWithoutChanging : Obligations.ControllerReadsWithoutChanging := by
  intro P s
  refine ⟨fun c he hc => ?_, rfl, rfl, rfl, rfl, rfl, fun a ha => ?_⟩
  · cases c with
    | construct => cases hc
    | step | run | runUntilOutput => cases he
    | writeInput v => exact command_writeInput_state P v s
    | peek a => exact ⟨s.inr, command_peek P a s⟩
    | outputs | halted | fault | pc | rb => exact ⟨s.inr, rfl⟩
  · simp [command, peek, ha, readAt]

theorem stepCommand_of_fault {P : Params} {s : State} {f : Fault} (hf : s.fault = some f) :
    stepCommand P s = (s, .faulted f) := by
  simp only [stepCommand, hf]

/-- Settles O49: each of the three commands looks at `FAULT` first, and `write_input` does not reach it. -/
theorem faultIsSticky : Obligations.FaultIsSticky := by
  intro P s f v fuel hf
  obtain ⟨x, hx⟩ := command_writeInput_state P v s
  exact ⟨stepCommand_of_fault hf, run_of_fault hf fuel, runUntilOutput_of_fault hf fuel, by rw [hx]; exact hf⟩

/-- Values placed from an address on leave what lies below it. -/
theorem read_place_of_lt {a b : Nat} (m : Mem) (vs : List Int) (h : b < a) :
    Mem.read (Mem.place m a vs) b = Mem.read m b := by
  induction vs generalizing m a with
  | nil => rfl
  | cons v vs ih => rw [Mem.place, ih _ (by omega), read_write_other m v (by omega)]

/-- They leave what lies beyond their last. -/
theorem read_place_of_le {a b : Nat} (m : Mem) (vs : List Int) (h : a + vs.length ≤ b) :
    Mem.read (Mem.place m a vs) b = Mem.read m b := by
  induction vs generalizing m a with
  | nil => rfl
  | cons v vs ih =>
    rw [List.length_cons] at h
    rw [Mem.place, ih _ (by omega), read_write_other m v (by omega)]

/-- Between, each is read at its place. -/
theorem read_place_getElem {m : Mem} (hm : Mem.wf m = true) {vs : List Int} {k : Nat} (a : Nat) (hk : k < vs.length) :
    Mem.read (Mem.place m a vs) (a + k) = vs[k] := by
  induction vs generalizing m a k with
  | nil => cases hk
  | cons v vs ih =>
    cases k with
    | zero => exact (read_place_of_lt _ vs (Nat.lt_succ_self a)).trans (read_write_same hm a v)
    | succ k =>
      have hrest := ih (write_wf hm a v) (a + 1) (Nat.lt_of_succ_lt_succ hk)
      rw [Nat.succ_add_eq_add_succ] at hrest
      exact hrest

/-- Settles O56: the image is placed from address 0 into a memory that reads 0; the other elements are fixed. -/
theorem constructSetsEveryElement : Obligations.ConstructSetsEveryElement := by
  intro image input
  refine ⟨fun k hk => ?_, fun k hk => ?_, rfl, rfl, rfl, rfl, rfl, rfl⟩
  · have hread := read_place_getElem (m := []) rfl 0 hk
    rw [Nat.zero_add] at hread
    rw [List.getElem?_eq_getElem hk, ← hread]
    rfl
  · exact read_place_of_le [] image (by rwa [Nat.zero_add])

theorem construct_of_legal {P : Params} {image : List Int} {input : Option Int}
    (hvals : ∀ v ∈ image ++ input.toList, inVal P v = true) (hfit : imageFits P image = true) :
    construct P image input = .ok (constructed image input) := by
  simp [construct, firstOutside_eq_none.mpr hvals, hfit]

theorem construct_refused {P : Params} {image : List Int} {input : Option Int}
    (h : (∃ v ∈ image ++ input.toList, inVal P v = false) ∨ imageFits P image = false) :
    ∃ r, construct P image input = .error r := by
  cases hout : firstOutside P (image ++ input.toList) with
  | some v => exact ⟨.constructOutsideVal v, by rw [construct, hout]⟩
  | none =>
    obtain ⟨v, hmem, hv⟩ | hfit := h
    · cases (firstOutside_eq_none.mp hout v hmem).symm.trans hv
    · exact ⟨.imageTooLong image.length, by simp [construct, hout, hfit]⟩

/-- Settles O57: the command answers what `construct` does, which looks at its arguments alone. -/
theorem constructHappensOrIsRefused : Obligations.ConstructHappensOrIsRefused := by
  intro P image input s
  refine ⟨fun hvals hfit => ?_, fun hbad => ?_⟩
  · rw [command, construct_of_legal hvals hfit]
    rfl
  · obtain ⟨r, hr⟩ := construct_refused hbad
    exact ⟨r, by rw [command, hr]; rfl⟩

/-- Settles O43: the first step fetches a cell of 0. -/
theorem resetIsConstructOfTheEmptyImage : Obligations.ResetIsConstructOfTheEmptyImage := by
  obtain ⟨-, hreject, -⟩ := stepRunsTheDecodedInstruction State.reset
  exact ⟨rfl, hreject _ rfl le_rfl (decode_zero hardware 0 0 0), read_nil⟩

end Sys2Proof.Machine
end
